-- ==== Sys2Proof/Word.lean ====
section
/-!
DEFINITION. The value types of the machine, one per kind of thing the spec names (spec/00_scope.md R5, R8).
-/

namespace Sys2Proof

/-- An unsigned 8-bit value: a general register, a timer counter, a memory cell (R20, R34, R60). -/
abbrev Byte := BitVec 8

/-- An unsigned 16-bit value: an instruction word, `I`, `PC`, a stack slot (R8, R25, R28, R31). -/
abbrev Word := BitVec 16

/-- The 12-bit address field `nnn` of an instruction (R9, R92). -/
abbrev Addr := BitVec 12

/-- The index of a general register, `V0` to `VF`; every index is valid (R20). -/
abbrev Reg := Fin 16

end Sys2Proof
end

