-- ==== Sys2Proof/Config.lean ====
section
/-!
DEFINITION. What the implementation fixes (spec/00_scope.md R5) and the values the spec leaves open (R6).
A value left open is an opaque constant: nothing in Lean can evaluate it, so a claim that is proved holds whatever it is.
-/

namespace Sys2Proof.Config

/-- `MEM_SIZE`: main memory has the byte addresses 0 to 4095 (R5, R60). -/
@[simp] def memSize : Nat := 4096

/-- `FONT_LEN`: the font table is the first 80 bytes of memory, from `FONT_BASE` = 0 (R5, R68). -/
@[simp] def fontLen : Nat := 80

/-- `PROG_BASE`: where the program image begins, and the reset value of `PC` (R5, R70, R271). -/
@[simp] def progBase : Nat := 512

/-- `FONT`: the 80 glyph bytes, which the spec leaves open (R6, R68, D11; log entry 1). -/
opaque font : Fin 80 → Byte

/-- The random source of Cxkk: the byte of the n-th draw. The spec gives it no law (R152, D13; log entry 2). -/
opaque randomByte : Nat → Byte

end Sys2Proof.Config
end

