-- ==== Sys2Proof/Machine/State.lean ====
section
/-!
DEFINITION. The state of the machine as plain data (spec/10_state.md), the reasons a step can stop, and the state after reset (R40).
-/

namespace Sys2Proof.Machine

/-- The four fault kinds, and no others (R230). -/
inductive FaultKind where
  /-- An instruction fetch or a data access names an address outside 0 to 4095 (R231). -/
  | memoryFault
  /-- 2nnn with sixteen return addresses already held (R232). -/
  | stackOverflow
  /-- 00EE with no return address held (R233). -/
  | stackUnderflow
  /-- The fetched word matches no row of the opcode map (R234). -/
  | unknownOpcode
  deriving DecidableEq, Repr

/-- The fault record `FAULT` (R37). Its numeric code is a function of the kind: `FaultKind.code`. -/
structure FaultRecord where
  kind : FaultKind
  /-- The address of the faulting instruction. -/
  ia   : Word
  /-- The fetched word; none for a fetch fault. -/
  op   : Option Word
  /-- The lowest out-of-range address the access would have touched; only for a `MemoryFault` (R231). -/
  addr : Option Nat
  deriving DecidableEq, Repr

/-- The run state `MODE` (R36). -/
inductive Mode where
  /-- The instruction agent may take a cycle. -/
  | running
  /-- The instruction agent is blocked inside Fx0A, holding the destination register (R212). -/
  | waitingForKey (x : Reg)
  /-- A fault was raised: the instruction agent takes no further step (R236). -/
  | faulted
  /-- The host raised stop: neither agent takes a further step (R248). -/
  | stopped
  deriving DecidableEq, Repr

/-- What the timer agent and the host can do between two instruction cycles: the signals into the engine (R7, R244). -/
inductive Input where
  /-- The instruction agent takes its turn before the inputs behind this one (R241). -/
  | cycle
  /-- One 60 Hz timer tick (R240). -/
  | tick
  /-- The host presents a pattern of held keys, bit k for key k (R210). -/
  | keys (down : BitVec 16)
  /-- A key press is delivered (R212). -/
  | keyPress (k : Fin 16)
  /-- The host takes a snapshot and clears `RP` (R246). -/
  | redrawAck
  /-- The host raises stop (R248). -/
  | stop
  /-- The host resets the engine, loads a program image and starts the run (R270, R272). -/
  | reset (program : List Byte)
  deriving DecidableEq, Repr

/-- Main memory `MEM` in canonical form: addresses strictly rising, no entry equal to what an unlisted address reads as. -/
abbrev Memory := List Host.Cell

/-- The framebuffer `FB`: 32 rows of 64 one-bit pixels (R39). -/
abbrev Framebuffer := Vector (Vector Bool 64) 32

/-- Every piece of state the spec gives the machine (R20 to R39), and the inputs it reads (R42). -/
structure State where
  /-- `V[0..15]`, the general registers; `V[15]` is VF (R20, R23). -/
  v        : Vector Byte 16
  /-- `I`, the address register (R25). -/
  i        : Word
  /-- `PC`, the address of the next instruction to fetch (R31). -/
  pc       : Word
  /-- `SP`, the number of return addresses held, 0 to 16 (R28). -/
  sp       : Fin 17
  /-- `STACK[0..15]`, the call stack, a store of its own (R28). -/
  stack    : Vector Word 16
  /-- `DT`, the delay timer (R34). -/
  dt       : Byte
  /-- `ST`, the sound timer (R34). -/
  st       : Byte
  /-- `MEM[0..4095]` (R38, R60). -/
  mem      : Memory
  /-- `FB`, the framebuffer (R39). -/
  fb       : Framebuffer
  /-- `RP`, redraw pending (R35). -/
  rp       : Bool
  /-- `MODE`, the run state (R36). -/
  mode     : Mode
  /-- `FAULT`, empty until a fault is raised (R37). -/
  fault    : Option FaultRecord
  /-- The model's own: the level of the `key_down` lines the host presents, bit k for key k (R210, R244; log entry 3). -/
  keysDown : BitVec 16
  /-- The model's own: how many random draws have been taken; the next draw is `Config.randomByte draws` (R152; log entry 2). -/
  draws    : Nat
  /-- The model's own: the inputs due before the next instruction cycle, oldest first (R42, R241; log entry 4). -/
  inputs   : List Input
  deriving DecidableEq, Repr

/-- Why a step stops the machine. No instruction does: the four faults of R230 are taken as the spec describes them, in a next state. -/
inductive Fault where
  /-- Raised by the host's reset when the program image does not fit in memory: no run begins, and `addr` is the first address outside it (R63, R272, R273). Safe: the spec says the engine never runs on a failed load. -/
  | loadFailed (addr : Nat)
  deriving DecidableEq, Repr

/-- Why an instruction has no meaning. -/
inductive Refusal where
  /-- Raised by an arm of `exec` whose instruction has no meaning yet. Safe: no claim about it can be proved. No arm does. -/
  | notModelled (mnemonic : String)
  deriving DecidableEq, Repr

/-- The three outcomes of a step of this machine. -/
abbrev Result := Host.Outcome State Fault Refusal

/-- The state after reset (R40): `PC` = 512, `MODE` Running, `FAULT` empty, every register, counter, slot and pixel zero, and memory as
`Memory.unlisted` gives it, with nothing listed: the font at 0 to 79 and zero elsewhere (log entries 1, 3, 4, 5). -/
def State.reset : State :=
  { v := Vector.replicate 16 0
    i := 0
    pc := 512
    sp := 0
    stack := Vector.replicate 16 0
    dt := 0
    st := 0
    mem := []
    fb := Vector.replicate 32 (Vector.replicate 64 false)
    rp := false
    mode := .running
    fault := none
    keysDown := 0
    draws := 0
    inputs := [] }

end Sys2Proof.Machine
end

