-- ==== Sys2Proof/Machine/Flags.lean ====
section
/-!
DEFINITION. The flag values that instructions write to VF (spec/10_state.md R23). There is no flags register: VF is `V[15]`.
The fifth flag, the collision of Dxyn, is `Drawing.hit` of Machine/Framebuffer.lean.
-/

namespace Sys2Proof.Machine

/-- The byte a flag is written as: always 0 or 1 (R23). -/
def flagByte (f : Bool) : Byte := if f then 1 else 0

/-- Carry of an addition: 1 iff the unmasked sum exceeds 255 (R146, R153). -/
def carryOut (a b : Byte) : Bool := decide (a.toNat + b.toNat > 255)

/-- Not-borrow of the subtraction `a - b`: 1 iff `a >= b` (R147, R149, R153). -/
def notBorrow (a b : Byte) : Bool := decide (a.toNat ≥ b.toNat)

/-- The bit a right shift moves out, bit 0 (R148). -/
def shiftedOutRight (b : Byte) : Bool := b.getLsbD 0

/-- The bit a left shift moves out, bit 7 (R150). -/
def shiftedOutLeft (b : Byte) : Bool := b.getLsbD 7

end Sys2Proof.Machine
end

