-- ==== Sys2Proof/Machine/Framebuffer.lean ====
section
/-!
DEFINITION. The framebuffer (spec/10_state.md R39, spec/43_display.md R190 to R195): pixels, clearing, and drawing a sprite by exclusive-or.
-/

namespace Sys2Proof.Machine

/-- `FB[x][y]`: the pixel at column `x` and row `y` (R39). -/
def Framebuffer.pixel (fb : Framebuffer) (x : Fin 64) (y : Fin 32) : Bool := (fb[y])[x]

/-- `FB[x][y] <- b`. -/
def Framebuffer.setPixel (fb : Framebuffer) (x : Fin 64) (y : Fin 32) (b : Bool) : Framebuffer :=
  fb.set y ((fb[y]).set x b)

/-- The all-zero framebuffer (R190). -/
def Framebuffer.clear : Framebuffer := Vector.replicate 32 (Vector.replicate 64 false)

/-- A drawing in progress: the framebuffer and whether a pixel has been turned off yet, the `hit` of R192. -/
structure Drawing where
  fb  : Framebuffer
  hit : Bool
  deriving DecidableEq, Repr

/-- One set bit of a sprite: the pixel at the wrapped coordinates is inverted, and inverting a set pixel is a hit (R191, R192). -/
def Drawing.plot (d : Drawing) (cx cy : Nat) : Drawing :=
  let x := Fin.ofNat 64 cx
  let y := Fin.ofNat 32 cy
  { fb := d.fb.setPixel x y (!d.fb.pixel x y), hit := d.hit || d.fb.pixel x y }

/-- One sprite row: column `c` is bit `7 - c` of the byte (R191). -/
def Drawing.row (px py : Nat) (b : Byte) (d : Drawing) : Drawing :=
  (List.range 8).foldl (fun d c => if b.getLsbD (7 - c) then d.plot (px + c) py else d) d

/-- The sprite rows, the first at row `py` and each next one a row lower (R191). -/
def Drawing.rows (px : Nat) : Nat → List Byte → Drawing → Drawing
  | _, [], d => d
  | py, b :: bs, d => Drawing.rows px (py + 1) bs (d.row px py b)

/-- The draw of R192: the sprite's rows at column `px` and row `py`, starting with no hit. -/
def Framebuffer.draw (fb : Framebuffer) (px py : Nat) (sprite : List Byte) : Drawing :=
  Drawing.rows px py sprite { fb := fb, hit := false }

end Sys2Proof.Machine
end

