-- ==== Sys2Proof/Machine/Memory.lean ====
section
/-!
DEFINITION. Main memory (spec/20_memory.md): what an unlisted address reads as, reading and writing cells, runs of consecutive
cells, the canonical form, and the range check of every access.
-/

namespace Sys2Proof.Machine

/-- What an address with no entry reads as, its reset contents: the font at 0 to 79, zero elsewhere (R40, R68, R70; log entries 1 and 5). -/
def Memory.unlisted (a : Nat) : Byte :=
  if h : a < 80 then Config.font ⟨a, h⟩ else 0

/-- The value of the cell `MEM[a]` (R60, R67). -/
def Memory.read : Memory → Nat → Byte
  | [], a => Memory.unlisted a
  | (k, c) :: m, a => if a = k then c else Memory.read m a

/-- Put an entry in front, or none where the value is what the address reads as without one. -/
def Memory.entry (a : Nat) (b : Byte) (m : Memory) : Memory :=
  if b = Memory.unlisted a then m else (a, b) :: m

/-- `MEM[a] <- b`, keeping the canonical form (R62, R67). -/
def Memory.write : Memory → Nat → Byte → Memory
  | [], a, b => Memory.entry a b []
  | (k, c) :: m, a, b =>
    if a < k then Memory.entry a b ((k, c) :: m)
    else if a = k then Memory.entry a b m
    else (k, c) :: Memory.write m a b

/-- The `n` bytes at `base`, `base + 1`, and so on upward (R65). -/
def Memory.readBytes (m : Memory) (base n : Nat) : List Byte :=
  (List.range n).map fun k => m.read (base + k)

/-- Write the bytes to `base`, `base + 1`, and so on upward (R65). -/
def Memory.writeBytes : Memory → Nat → List Byte → Memory
  | m, _, [] => m
  | m, base, b :: bs => Memory.writeBytes (m.write base b) (base + 1) bs

/-- The canonical form: addresses strictly rising and below 4096, no entry equal to what its address reads as without one. -/
abbrev Memory.wf (m : Memory) : Prop :=
  m.Pairwise (fun c d => c.1 < d.1) ∧ ∀ c ∈ m, c.1 < 4096 ∧ c.2 ≠ Memory.unlisted c.1

/-- The range check of an access to `len` bytes at `base`: the lowest address of the access above 4095, if there is one.
The addresses are natural numbers and never wrap (R27, R61, R176, R231). -/
def outOfRange (base len : Nat) : Option Nat :=
  if len = 0 ∨ base + len ≤ 4096 then none else some (max base 4096)

/-- `loadBlock(origin, bytes)`: the host's bulk write before a run. A load that touches an address above 4095 fails, naming the first
such address, and writes nothing (R63). -/
def Memory.loadBlock (m : Memory) (origin : Nat) (bytes : List Byte) : Except Nat Memory :=
  match outOfRange origin bytes.length with
  | some a => .error a
  | none => .ok (m.writeBytes origin bytes)

end Sys2Proof.Machine
end

