-- ==== Sys2Proof/Machine/Ops.lean ====
section
/-!
DEFINITION. The named operations over the state: registers, program counter, call stack, and taking a fault, each written once.
There is no return from a fault (R239): the only exits from the Faulted mode are the host's stop and reset, in Machine/Environment.lean.
-/

namespace Sys2Proof.Machine

/-- `V[x]` (R20). -/
def State.reg (s : State) (x : Reg) : Byte := s.v[x]

/-- `V[x] <- b`; the register keeps 8 bits because `b` has 8 (R21). -/
def State.setReg (s : State) (x : Reg) (b : Byte) : State := { s with v := s.v.set x b }

/-- `V[15] <- flag`, the last write of a flag-producing instruction (R23, R24). -/
def State.setVF (s : State) (f : Bool) : State := s.setReg 15 (flagByte f)

/-- `I <- a` (R25). -/
def State.setI (s : State) (a : Word) : State := { s with i := a }

/-- `pc <- target`; the target is not checked when assigned (R32, R121). -/
def State.setPc (s : State) (target : Word) : State := { s with pc := target }

/-- `pc <- ia + 2`, done after every successful fetch (R91). -/
def State.advance (s : State) : State := s.setPc (s.pc + 2)

/-- Skip the next instruction when the condition holds: `pc <- pc + 2` (R128). -/
def State.skipIf (s : State) (c : Bool) : State := if c then s.setPc (s.pc + 2) else s

/-- `DT <- b` (R215). -/
def State.setDT (s : State) (b : Byte) : State := { s with dt := b }

/-- `ST <- b` (R216). -/
def State.setST (s : State) (b : Byte) : State := { s with st := b }

/-- Replace the contents of main memory. -/
def State.setMem (s : State) (m : Memory) : State := { s with mem := m }

/-- Replace the framebuffer and mark redraw pending, whether or not a pixel changed (R35). -/
def State.setScreen (s : State) (fb : Framebuffer) : State := { s with fb := fb, rp := true }

/-- `MODE <- m` (R36). -/
def State.setMode (s : State) (m : Mode) : State := { s with mode := m }

/-- Count one random draw as taken (log entry 2). -/
def State.countDraw (s : State) : State := { s with draws := s.draws + 1 }

/-- `push(v)`, none when all sixteen slots are in use: `STACK[SP] <- v; SP <- SP + 1` (R29). -/
def State.push (s : State) (v : Word) : Option State :=
  if h : s.sp.val < 16 then
    some { s with stack := s.stack.set s.sp.val v, sp := ⟨s.sp.val + 1, by omega⟩ }
  else none

/-- `pop()`, none when no slot is in use: `SP <- SP - 1`, the result `STACK[SP]`; the slot keeps its value (R30). -/
def State.pop (s : State) : Option (Word × State) :=
  if h : 0 < s.sp.val then
    some (s.stack[s.sp.val - 1]'(by omega), { s with sp := ⟨s.sp.val - 1, by omega⟩ })
  else none

/-- The numeric code of a fault kind (R37, R230). -/
def FaultKind.code : FaultKind → Nat
  | .memoryFault => 1
  | .stackOverflow => 2
  | .stackUnderflow => 3
  | .unknownOpcode => 4

/-- The code field of the fault record (R37). -/
def FaultRecord.code (f : FaultRecord) : Nat := f.kind.code

/-- TAKING A FAULT (R236): the mode becomes Faulted and the record is filled; nothing else changes (R237). Control goes nowhere: there is
no handler and no saved-state register. -/
def raise (kind : FaultKind) (ia : Word) (op : Option Word) (addr : Option Nat) (s : State) : Result :=
  .next { s with mode := .faulted, fault := some { kind := kind, ia := ia, op := op, addr := addr } }

/-- A fault raised by the handler of the instruction whose word is `op`. In a handler `pc` is `ia + 2`, and stays so (R91, R237). -/
def raiseInHandler (kind : FaultKind) (op : Word) (addr : Option Nat) (s : State) : Result :=
  raise kind (s.pc - 2) (some op) addr s

/-- An instruction that accesses `len` bytes at `base`: the range is checked before anything is written, and an access that leaves
0 to 4095 faults with no other effect (R24, R176, R237). `done` is the state the instruction leaves otherwise. -/
def withinMemory (base len : Nat) (op : Word) (s done : State) : Result :=
  match outOfRange base len with
  | some a => raiseInHandler .memoryFault op (some a) s
  | none => .next done

end Sys2Proof.Machine
end

