-- ==== Sys2Proof/Machine/Operands.lean ====
section
/-!
DEFINITION. The operand forms (spec/30_encoding.md R96, spec/42_index_memory.md R176): immediates, the address `nnn`, register-indirect
memory through `I`, register ranges, decimal digits, and the sampled inputs.
-/

namespace Sys2Proof.Machine

/-- The absolute address `nnn`, zero-extended (R96). -/
def target (nnn : Addr) : Word := nnn.setWidth 16

/-- The target of Bnnn: `nnn + V[0]`, a sum of at most 4350, assigned whole (R127). -/
def indexedTarget (s : State) (nnn : Addr) : Word := nnn.setWidth 16 + (s.reg 0).setWidth 16

/-- The address `I` holds, as the natural number every effective address `I + k` is formed from (R27, R176). -/
def State.base (s : State) : Nat := s.i.toNat

/-- `I + V[x]`, reduced modulo 65536 by the width of `I` (R26, R171). -/
def sumIndex (s : State) (x : Reg) : Word := s.i + (s.reg x).setWidth 16

/-- The address of the font glyph of the whole 8-bit value `V[x]`: `5 * V[x]` (R172). -/
def glyphAddress (b : Byte) : Word := 5 * b.setWidth 16

/-- The decimal digits of a byte, most significant first: hundreds, tens, units (R65, R173). -/
def decimalDigits (b : Byte) : List Byte := [b / 100, b / 10 % 10, b % 10]

/-- The registers `V[0]` to `V[x]` in order: `x + 1` bytes (R174). -/
def State.regsUpTo (s : State) (x : Reg) : List Byte := s.v.toList.take (x.val + 1)

/-- `V[j] <- MEM[I + j]` for `j` in 0 to `x`; the registers above `x` keep their values (R175). -/
def State.loadRegs (s : State) (x : Reg) : State :=
  { s with v := Vector.ofFn fun j => if j ≤ x then s.mem.read (s.base + j.val) else s.reg j }

/-- `KeyDown(v)`: whether the logical key of value `v` is held now. No key has a value above 15, so none is held (R210, D12). -/
def State.keyDown (s : State) (v : Byte) : Bool :=
  if v.toNat < 16 then s.keysDown.getLsbD v.toNat else false

/-- `RandomByte()`: the draw the environment supplies now (R152; log entry 2). -/
def State.randomByte (s : State) : Byte := Config.randomByte s.draws

end Sys2Proof.Machine
end

