-- ==== Sys2Proof/Machine/Alu.lean ====
section
/-!
DEFINITION. Register loads, arithmetic, logic, shifts and random (spec/41_alu.md). A flag-producing instruction reads its operands,
then writes its result to `V[x]`, then its flag to `V[15]` (R24, R154), so with `x = 15` the flag is what remains.
-/

namespace Sys2Proof.Machine

/-- The two writes of a flag-producing instruction, in the order of R154. -/
def writeWithFlag (s : State) (x : Reg) (result : Byte) (flag : Bool) : Result :=
  .next ((s.setReg x result).setVF flag)

/-- 6xkk: `V[x] <- kk` (R140). -/
def execLdByte (x : Reg) (kk : Byte) (s : State) : Result := .next (s.setReg x kk)

/-- 7xkk: `V[x] <- (V[x] + kk) mod 256`, no flag (R141). -/
def execAddByte (x : Reg) (kk : Byte) (s : State) : Result := .next (s.setReg x (s.reg x + kk))

/-- 8xy0: `V[x] <- V[y]` (R142). -/
def execLdReg (x y : Reg) (s : State) : Result := .next (s.setReg x (s.reg y))

/-- 8xy1: `V[x] <- V[x] | V[y]`, VF not written as a flag (R143). -/
def execOrReg (x y : Reg) (s : State) : Result := .next (s.setReg x (s.reg x ||| s.reg y))

/-- 8xy2: `V[x] <- V[x] & V[y]` (R144). -/
def execAndReg (x y : Reg) (s : State) : Result := .next (s.setReg x (s.reg x &&& s.reg y))

/-- 8xy3: `V[x] <- V[x] ^ V[y]` (R145). -/
def execXorReg (x y : Reg) (s : State) : Result := .next (s.setReg x (s.reg x ^^^ s.reg y))

/-- 8xy4: `V[x] <- (V[x] + V[y]) mod 256`, VF the carry (R146). -/
def execAddReg (x y : Reg) (s : State) : Result :=
  writeWithFlag s x (s.reg x + s.reg y) (carryOut (s.reg x) (s.reg y))

/-- 8xy5: `V[x] <- (V[x] - V[y]) mod 256`, VF the not-borrow (R147). -/
def execSubReg (x y : Reg) (s : State) : Result :=
  writeWithFlag s x (s.reg x - s.reg y) (notBorrow (s.reg x) (s.reg y))

/-- 8xy6: `V[x] <- V[y] >> 1`, VF the bit shifted out (R148). -/
def execShr (x y : Reg) (s : State) : Result :=
  writeWithFlag s x (s.reg y >>> 1) (shiftedOutRight (s.reg y))

/-- 8xy7: `V[x] <- (V[y] - V[x]) mod 256`, VF the not-borrow of that subtraction (R149). -/
def execSubn (x y : Reg) (s : State) : Result :=
  writeWithFlag s x (s.reg y - s.reg x) (notBorrow (s.reg y) (s.reg x))

/-- 8xyE: `V[x] <- (V[y] << 1) mod 256`, VF the bit shifted out (R150). -/
def execShl (x y : Reg) (s : State) : Result :=
  writeWithFlag s x (s.reg y <<< 1) (shiftedOutLeft (s.reg y))

/-- Cxkk: `V[x] <- RandomByte() & kk` (R151). -/
def execRnd (x : Reg) (kk : Byte) (s : State) : Result :=
  .next (s.setReg x (s.randomByte &&& kk)).countDraw

end Sys2Proof.Machine
end

