-- ==== Sys2Proof/Syntax.lean ====
section
/-!
DEFINITION. The instructions: one constructor per row of spec/opcode_table.json, in the order of spec/30_encoding.md R95.
The operands have exactly the width of their fields, so a term of `Instr` is always a legal instruction (R96).
-/

namespace Sys2Proof

/-- The 34 instructions of R95. `x` and `y` index general registers, `kk` is the 8-bit immediate, `nnn` the 12-bit address, `n` the sprite row count (R9, R96). -/
inductive Instr where
  /-- 00E0 `CLS` (R190). -/
  | cls
  /-- 00EE `RET` (R120). -/
  | ret
  /-- 1nnn `JP nnn` (R121). -/
  | jp (nnn : Addr)
  /-- 2nnn `CALL nnn` (R122). -/
  | call (nnn : Addr)
  /-- 3xkk `SE Vx, kk` (R123). -/
  | seByte (x : Reg) (kk : Byte)
  /-- 4xkk `SNE Vx, kk` (R124). -/
  | sneByte (x : Reg) (kk : Byte)
  /-- 5xy0 `SE Vx, Vy` (R125). -/
  | seReg (x y : Reg)
  /-- 6xkk `LD Vx, kk` (R140). -/
  | ldByte (x : Reg) (kk : Byte)
  /-- 7xkk `ADD Vx, kk` (R141). -/
  | addByte (x : Reg) (kk : Byte)
  /-- 8xy0 `LD Vx, Vy` (R142). -/
  | ldReg (x y : Reg)
  /-- 8xy1 `OR Vx, Vy` (R143). -/
  | orReg (x y : Reg)
  /-- 8xy2 `AND Vx, Vy` (R144). -/
  | andReg (x y : Reg)
  /-- 8xy3 `XOR Vx, Vy` (R145). -/
  | xorReg (x y : Reg)
  /-- 8xy4 `ADD Vx, Vy` (R146). -/
  | addReg (x y : Reg)
  /-- 8xy5 `SUB Vx, Vy` (R147). -/
  | subReg (x y : Reg)
  /-- 8xy6 `SHR Vx, Vy` (R148). -/
  | shr (x y : Reg)
  /-- 8xy7 `SUBN Vx, Vy` (R149). -/
  | subn (x y : Reg)
  /-- 8xyE `SHL Vx, Vy` (R150). -/
  | shl (x y : Reg)
  /-- 9xy0 `SNE Vx, Vy` (R126). -/
  | sneReg (x y : Reg)
  /-- Annn `LD I, nnn` (R170). -/
  | ldI (nnn : Addr)
  /-- Bnnn `JP V0, nnn` (R127). -/
  | jpV0 (nnn : Addr)
  /-- Cxkk `RND Vx, kk` (R151). -/
  | rnd (x : Reg) (kk : Byte)
  /-- Dxyn `DRW Vx, Vy, n` (R192). -/
  | drw (x y : Reg) (n : Fin 16)
  /-- Ex9E `SKP Vx` (R211). -/
  | skp (x : Reg)
  /-- ExA1 `SKNP Vx` (R213). -/
  | sknp (x : Reg)
  /-- Fx07 `LD Vx, DT` (R214). -/
  | ldVxDT (x : Reg)
  /-- Fx0A `LD Vx, K` (R212). -/
  | ldVxK (x : Reg)
  /-- Fx15 `LD DT, Vx` (R215). -/
  | ldDTVx (x : Reg)
  /-- Fx18 `LD ST, Vx` (R216). -/
  | ldSTVx (x : Reg)
  /-- Fx1E `ADD I, Vx` (R171). -/
  | addI (x : Reg)
  /-- Fx29 `LD F, Vx` (R172). -/
  | ldF (x : Reg)
  /-- Fx33 `LD B, Vx` (R173). -/
  | ldB (x : Reg)
  /-- Fx55 `LD [I], Vx` (R174). -/
  | storeRegs (x : Reg)
  /-- Fx65 `LD Vx, [I]` (R175). -/
  | loadRegs (x : Reg)
  deriving DecidableEq, Repr

end Sys2Proof
end

