-- ==== Sys2Proof/Decode.lean ====
section
/-!
DEFINITION. Byte order (spec/20_memory.md R64), field extraction, decoding and encoding (spec/30_encoding.md R92 to R101).
The decoder follows the selectors of R97 and R98; the encoder follows the pattern column of R95.
-/

namespace Sys2Proof

/-- The instruction word made of two consecutive bytes, the one at the lower address high (R64). -/
def joinBytes (hi lo : Byte) : Word := hi ++ lo

/-- The high byte `op[15:8]`, stored at the lower address (R64, R94). -/
def highByte (w : Word) : Byte := w.extractLsb' 8 8

/-- The low byte `op[7:0]`, stored at the higher address (R64, R94). -/
def lowByte (w : Word) : Byte := w.extractLsb' 0 8

/-- The bytes of a word as the hardware stores them, lowest address first (R64, R94). -/
def bytesOf (w : Word) : List Byte := [highByte w, lowByte w]

/-- The fields of R94, extracted from every word whatever its family (R92). -/
structure Fields where
  t   : BitVec 4
  x   : Reg
  y   : Reg
  n   : Fin 16
  kk  : Byte
  nnn : Addr
  deriving DecidableEq, Repr

/-- The bit positions of the fields: `t` 15..12, `x` 11..8, `y` 7..4, `n` 3..0, `kk` 7..0, `nnn` 11..0 (R8, R94). -/
def fieldsOf (w : Word) : Fields :=
  { t := w.extractLsb' 12 4
    x := (w.extractLsb' 8 4).toFin
    y := (w.extractLsb' 4 4).toFin
    n := (w.extractLsb' 0 4).toFin
    kk := w.extractLsb' 0 8
    nnn := w.extractLsb' 0 12 }

/-- Why bytes do not decode. -/
inductive Reject where
  /-- Fewer than the two bytes of an instruction (R101). -/
  | truncated
  /-- The word matches no row of R95 (R99). -/
  | unknownOpcode (w : Word)
  deriving DecidableEq, Repr

/-- Family 0 is selected by the whole word (R98). -/
def decodeFamily0 (w : Word) : Except Reject Instr :=
  if w = 0x00E0 then .ok .cls
  else if w = 0x00EE then .ok .ret
  else .error (.unknownOpcode w)

/-- Family 8 is selected by the low nibble, compared as a number (R97). -/
def decodeFamily8 (w : Word) (f : Fields) : Except Reject Instr :=
  match f.n.val with
  | 0x0 => .ok (.ldReg f.x f.y)
  | 0x1 => .ok (.orReg f.x f.y)
  | 0x2 => .ok (.andReg f.x f.y)
  | 0x3 => .ok (.xorReg f.x f.y)
  | 0x4 => .ok (.addReg f.x f.y)
  | 0x5 => .ok (.subReg f.x f.y)
  | 0x6 => .ok (.shr f.x f.y)
  | 0x7 => .ok (.subn f.x f.y)
  | 0xE => .ok (.shl f.x f.y)
  | _   => .error (.unknownOpcode w)

/-- Family E is selected by the low byte (R98). -/
def decodeFamilyE (w : Word) (f : Fields) : Except Reject Instr :=
  match f.kk.toNat with
  | 0x9E => .ok (.skp f.x)
  | 0xA1 => .ok (.sknp f.x)
  | _    => .error (.unknownOpcode w)

/-- Family F is selected by the low byte (R98). -/
def decodeFamilyF (w : Word) (f : Fields) : Except Reject Instr :=
  match f.kk.toNat with
  | 0x07 => .ok (.ldVxDT f.x)
  | 0x0A => .ok (.ldVxK f.x)
  | 0x15 => .ok (.ldDTVx f.x)
  | 0x18 => .ok (.ldSTVx f.x)
  | 0x1E => .ok (.addI f.x)
  | 0x29 => .ok (.ldF f.x)
  | 0x33 => .ok (.ldB f.x)
  | 0x55 => .ok (.storeRegs f.x)
  | 0x65 => .ok (.loadRegs f.x)
  | _    => .error (.unknownOpcode w)

/-- Families 5 and 9 have one instruction each, selected by low nibble 0 (R98). -/
def decodeLowNibble0 (w : Word) (f : Fields) (i : Instr) : Except Reject Instr :=
  if f.n = 0 then .ok i else .error (.unknownOpcode w)

/-- Decoding is a pure function of the word: the top nibble selects the family (R92, R93, R98). -/
def decodeWord (w : Word) : Except Reject Instr :=
  let f := fieldsOf w
  match f.t.toNat with
  | 0x0 => decodeFamily0 w
  | 0x1 => .ok (.jp f.nnn)
  | 0x2 => .ok (.call f.nnn)
  | 0x3 => .ok (.seByte f.x f.kk)
  | 0x4 => .ok (.sneByte f.x f.kk)
  | 0x5 => decodeLowNibble0 w f (.seReg f.x f.y)
  | 0x6 => .ok (.ldByte f.x f.kk)
  | 0x7 => .ok (.addByte f.x f.kk)
  | 0x8 => decodeFamily8 w f
  | 0x9 => decodeLowNibble0 w f (.sneReg f.x f.y)
  | 0xA => .ok (.ldI f.nnn)
  | 0xB => .ok (.jpV0 f.nnn)
  | 0xC => .ok (.rnd f.x f.kk)
  | 0xD => .ok (.drw f.x f.y f.n)
  | 0xE => decodeFamilyE w f
  | 0xF => decodeFamilyF w f
  | _   => .error (.unknownOpcode w)

/-- Decode the instruction at the front of a byte string and give the rest: always two bytes, high byte first (R64, R101). -/
def decode : List Byte → Except Reject (Instr × List Byte)
  | hi :: lo :: rest => (decodeWord (joinBytes hi lo)).map fun i => (i, rest)
  | _ => .error .truncated

/-- The 4-bit field that holds a register index or a row count (R94). -/
def nibble (x : Fin 16) : BitVec 4 := BitVec.ofFin x

/-- Format `XKK`: `t x kk` (R94). -/
def encodeXKK (t : BitVec 4) (x : Reg) (kk : Byte) : Word := t ++ nibble x ++ kk

/-- Formats `XY` and `XYN`: `t x y s`, where `s` is a literal nibble or `n` (R94). -/
def encodeXYN (t : BitVec 4) (x y : Reg) (s : BitVec 4) : Word := t ++ nibble x ++ nibble y ++ s

/-- Format `NNN`: `t nnn` (R94). -/
def encodeNNN (t : BitVec 4) (nnn : Addr) : Word := t ++ nnn

/-- The word of an instruction, from the pattern column of R95. -/
def encode : Instr → Word
  | .cls          => 0x00E0
  | .ret          => 0x00EE
  | .jp nnn       => encodeNNN 0x1 nnn
  | .call nnn     => encodeNNN 0x2 nnn
  | .seByte x kk  => encodeXKK 0x3 x kk
  | .sneByte x kk => encodeXKK 0x4 x kk
  | .seReg x y    => encodeXYN 0x5 x y 0x0
  | .ldByte x kk  => encodeXKK 0x6 x kk
  | .addByte x kk => encodeXKK 0x7 x kk
  | .ldReg x y    => encodeXYN 0x8 x y 0x0
  | .orReg x y    => encodeXYN 0x8 x y 0x1
  | .andReg x y   => encodeXYN 0x8 x y 0x2
  | .xorReg x y   => encodeXYN 0x8 x y 0x3
  | .addReg x y   => encodeXYN 0x8 x y 0x4
  | .subReg x y   => encodeXYN 0x8 x y 0x5
  | .shr x y      => encodeXYN 0x8 x y 0x6
  | .subn x y     => encodeXYN 0x8 x y 0x7
  | .shl x y      => encodeXYN 0x8 x y 0xE
  | .sneReg x y   => encodeXYN 0x9 x y 0x0
  | .ldI nnn      => encodeNNN 0xA nnn
  | .jpV0 nnn     => encodeNNN 0xB nnn
  | .rnd x kk     => encodeXKK 0xC x kk
  | .drw x y n    => encodeXYN 0xD x y (nibble n)
  | .skp x        => encodeXKK 0xE x 0x9E
  | .sknp x       => encodeXKK 0xE x 0xA1
  | .ldVxDT x     => encodeXKK 0xF x 0x07
  | .ldVxK x      => encodeXKK 0xF x 0x0A
  | .ldDTVx x     => encodeXKK 0xF x 0x15
  | .ldSTVx x     => encodeXKK 0xF x 0x18
  | .addI x       => encodeXKK 0xF x 0x1E
  | .ldF x        => encodeXKK 0xF x 0x29
  | .ldB x        => encodeXKK 0xF x 0x33
  | .storeRegs x  => encodeXKK 0xF x 0x55
  | .loadRegs x   => encodeXKK 0xF x 0x65

/-- The bytes of an instruction as the hardware stores them. -/
def encodeBytes (i : Instr) : List Byte := bytesOf (encode i)

/-- The instruction word that a number stands for when only its low `nbits` bits count. -/
def wordOfBits (nbits w : Nat) : Word := BitVec.ofNat 16 (w % 2 ^ nbits)

/-- The instruction that the decoder reads from the bytes of an instruction of the opcode table. -/
def decodeTableWord (nbits w : Nat) : Option Instr :=
  match decode (bytesOf (wordOfBits nbits w)) with
  | .ok (i, _) => some i
  | .error _ => none

end Sys2Proof
end

