-- ==== Sys2Proof/Machine/Display.lean ====
section
/-!
DEFINITION. The display instructions (spec/43_display.md): the only ones that touch the framebuffer and the redraw-pending flag.
-/

namespace Sys2Proof.Machine

/-- 00E0: every pixel 0, redraw pending (R190). -/
def execCls (s : State) : Result := .next (s.setScreen Framebuffer.clear)

/-- The drawing that Dxyn makes: the coordinates `V[x]` and `V[y]` are latched before any write (R192, R193). -/
def drawingOf (x y : Reg) (n : Fin 16) (s : State) : Drawing :=
  s.fb.draw (s.reg x).toNat (s.reg y).toNat (s.mem.readBytes s.base n.val)

/-- Dxyn: draw `n` sprite rows from memory at `I`, VF the collision, redraw pending (R192). -/
def execDrw (x y : Reg) (n : Fin 16) (s : State) : Result :=
  withinMemory s.base n.val (encode (.drw x y n)) s
    ((s.setScreen (drawingOf x y n s).fb).setVF (drawingOf x y n s).hit)

end Sys2Proof.Machine
end

