-- ==== Sys2Proof/Machine/Flow.lean ====
section
/-!
DEFINITION. Control transfer (spec/40_flow.md). In every meaning `pc` already holds `ia + 2` (R91).
-/

namespace Sys2Proof.Machine

/-- 00EE: `pc <- pop()`; `StackUnderflow` when the stack is empty (R120, R233). -/
def execRet (s : State) : Result :=
  match s.pop with
  | some (a, t) => .next (t.setPc a)
  | none => raiseInHandler .stackUnderflow (encode .ret) none s

/-- 1nnn: `pc <- nnn` (R121). -/
def execJp (nnn : Addr) (s : State) : Result := .next (s.setPc (target nnn))

/-- 2nnn: `push(pc); pc <- nnn`; `StackOverflow` when the stack is full (R122, R232). -/
def execCall (nnn : Addr) (s : State) : Result :=
  match s.push s.pc with
  | some t => .next (t.setPc (target nnn))
  | none => raiseInHandler .stackOverflow (encode (.call nnn)) none s

/-- 3xkk: skip if `V[x] == kk` (R123). -/
def execSeByte (x : Reg) (kk : Byte) (s : State) : Result := .next (s.skipIf (s.reg x == kk))

/-- 4xkk: skip if `V[x] != kk` (R124). -/
def execSneByte (x : Reg) (kk : Byte) (s : State) : Result := .next (s.skipIf (s.reg x != kk))

/-- 5xy0: skip if `V[x] == V[y]` (R125). -/
def execSeReg (x y : Reg) (s : State) : Result := .next (s.skipIf (s.reg x == s.reg y))

/-- 9xy0: skip if `V[x] != V[y]` (R126). -/
def execSneReg (x y : Reg) (s : State) : Result := .next (s.skipIf (s.reg x != s.reg y))

/-- Bnnn: `pc <- nnn + V[0]` (R127). -/
def execJpV0 (nnn : Addr) (s : State) : Result := .next (s.setPc (indexedTarget s nnn))

end Sys2Proof.Machine
end

