-- ==== Sys2Proof/Machine/IndexMemory.lean ====
section
/-!
DEFINITION. The address register, the decimal store and the block store and load (spec/42_index_memory.md).
-/

namespace Sys2Proof.Machine

/-- Annn: `I <- nnn` (R170). -/
def execLdI (nnn : Addr) (s : State) : Result := .next (s.setI (target nnn))

/-- Fx1E: `I <- (I + V[x]) mod 65536`; VF is not written (R171). -/
def execAddI (x : Reg) (s : State) : Result := .next (s.setI (sumIndex s x))

/-- Fx29: `I <- 5 * V[x]` (R172). -/
def execLdF (x : Reg) (s : State) : Result := .next (s.setI (glyphAddress (s.reg x)))

/-- Fx33: the decimal digits of `V[x]` to `I`, `I + 1`, `I + 2` (R173). -/
def execLdB (x : Reg) (s : State) : Result :=
  withinMemory s.base 3 (encode (.ldB x)) s (s.setMem (s.mem.writeBytes s.base (decimalDigits (s.reg x))))

/-- Fx55: `V[0]` to `V[x]` to memory from `I` upward; `I` is unchanged (R174). -/
def execStoreRegs (x : Reg) (s : State) : Result :=
  withinMemory s.base (x.val + 1) (encode (.storeRegs x)) s (s.setMem (s.mem.writeBytes s.base (s.regsUpTo x)))

/-- Fx65: `V[0]` to `V[x]` from memory from `I` upward; `I` is unchanged (R175). -/
def execLoadRegs (x : Reg) (s : State) : Result :=
  withinMemory s.base (x.val + 1) (encode (.loadRegs x)) s (s.loadRegs x)

end Sys2Proof.Machine
end

