-- ==== Sys2Proof/Machine/KeysTimers.lean ====
section
/-!
DEFINITION. The keypad and timer instructions (spec/44_keys_timers.md). None of them can fault.
-/

namespace Sys2Proof.Machine

/-- Ex9E: skip if the key `V[x]` is down (R211). -/
def execSkp (x : Reg) (s : State) : Result := .next (s.skipIf (s.keyDown (s.reg x)))

/-- ExA1: skip if the key `V[x]` is not down (R213). -/
def execSknp (x : Reg) (s : State) : Result := .next (s.skipIf (!s.keyDown (s.reg x)))

/-- Fx07: `V[x] <- DT` (R214). -/
def execLdVxDT (x : Reg) (s : State) : Result := .next (s.setReg x s.dt)

/-- Fx0A, step 1: `MODE <- WaitingForKey(x)` (R212). Step 2, the delivery of the key, is `pressKey` of Machine/Environment.lean. -/
def execLdVxK (x : Reg) (s : State) : Result := .next (s.setMode (.waitingForKey x))

/-- Fx15: `DT <- V[x]` (R215). -/
def execLdDTVx (x : Reg) (s : State) : Result := .next (s.setDT (s.reg x))

/-- Fx18: `ST <- V[x]` (R216). -/
def execLdSTVx (x : Reg) (s : State) : Result := .next (s.setST (s.reg x))

end Sys2Proof.Machine
end

