-- ==== Sys2Proof/Machine/Cycle.lean ====
section
/-!
DEFINITION. The cycle of the instruction agent: fetch, advance, decode, perform (spec/30_encoding.md R90 to R93 and R104).
-/

namespace Sys2Proof.Machine

/-- `MemRead(pc, 2)`: the two bytes at `pc` as one word, the one at `pc` high; or the lowest address outside memory (R61, R64, R90). -/
def fetch (s : State) : Except Nat Word :=
  match outOfRange s.pc.toNat 2 with
  | some a => .error a
  | none => .ok (joinBytes (s.mem.read s.pc.toNat) (s.mem.read (s.pc.toNat + 1)))

/-- The instruction step of R104 in the mode Running: the fetch check, then the decode check, then the handler (R235). A fetch fault leaves
`pc` at `ia`; a decode fault leaves it at `ia + 2` (R90, R91). -/
def runInstruction (s : State) : Result :=
  match fetch s with
  | .error a => raise .memoryFault s.pc none (some a) s
  | .ok op =>
    match decodeWord op with
    | .error _ => raise .unknownOpcode s.pc (some op) none s.advance
    | .ok i => exec i s.advance

/-- A turn of the instruction agent. A cycle is enabled only in the mode Running (R90); in the other modes nothing changes (R36, R236, R252). -/
def cycle (s : State) : Result :=
  match s.mode with
  | .running => runInstruction s
  | .waitingForKey _ => .next s
  | .faulted => .next s
  | .stopped => .next s

end Sys2Proof.Machine
end

