-- ==== Sys2Proof/Machine/Environment.lean ====
section
/-!
DEFINITION. The timer agent and the host (spec/60_exceptions.md R240 to R248, spec/70_reset_and_hazards.md R270 to R273): what each input of R244
does to the state, and what the host reads out. Each input is one atomic step (R7).
-/

namespace Sys2Proof.Machine

/-- A counter one tick later: one less, and a counter at 0 stays 0 (R240). -/
def countDown (b : Byte) : Byte := if b = 0 then 0 else b - 1

/-- One tick of the timer agent: both counters in the same step; disabled in the mode Stopped (R240). -/
def tick (s : State) : State :=
  match s.mode with
  | .stopped => s
  | _ => { s with dt := countDown s.dt, st := countDown s.st }

/-- The host presents a pattern of held keys (R210, R247). -/
def presentKeys (down : BitVec 16) (s : State) : State := { s with keysDown := down }

/-- The delivery of a key press, step 2 of Fx0A: `V[x] <- k; MODE <- Running` in the mode WaitingForKey, no effect in any other (R212, R247). -/
def pressKey (k : Fin 16) (s : State) : State :=
  match s.mode with
  | .waitingForKey x => (s.setReg x (BitVec.ofNat 8 k.val)).setMode .running
  | _ => s

/-- Stop: from every mode to Stopped; a fault record already made is kept and a pending key wait abandoned (R248). -/
def stop (s : State) : State := s.setMode .stopped

/-- The display read-out: the 2048 pixels in row-major order, index `y * 64 + x` (R245). -/
def readOut (s : State) : Vector Bool 2048 :=
  Vector.ofFn fun k => s.fb.pixel (Fin.ofNat 64 (k.val % 64)) (Fin.ofNat 32 (k.val / 64))

/-- `tone_active`: the sound timer is above 0; valid in every mode (R243). -/
def toneActive (s : State) : Bool := decide (s.st.toNat > 0)

/-- `waiting_for_key` (R244). -/
def waitingForKey (s : State) : Bool :=
  match s.mode with
  | .waitingForKey _ => true
  | _ => false

/-- The fault output: the line, up while the mode is Faulted, and the fields of `FAULT`, which the host reads in every mode and stop keeps
(R236, R244, R247, R248). -/
def faultOutput (s : State) : Bool × Option FaultRecord := (decide (s.mode = .faulted), s.fault)

/-- The host's render step: when `RP` is 1, the snapshot and the state with `RP` cleared, the two together (R246). -/
def render (s : State) : Option (Vector Bool 2048 × State) :=
  if s.rp then some (readOut s, { s with rp := false }) else none

/-- The state after the host's render step; without a pending redraw nothing changes (R246). -/
def acknowledgeRedraw (s : State) : State :=
  match render s with
  | some (_, t) => t
  | none => s

/-- Reset, load and run: the reset state with the program image at 512 and the font in place (R270, R272, R273). The engine never runs on
a failed load. The lines from the host, the draws taken and the inputs to come are not the engine's state and are kept (log entries 2, 3, 4). -/
def restart (program : List Byte) (s : State) : Result :=
  match State.reset.mem.loadBlock 512 program with
  | .error a => .fault (.loadFailed a)
  | .ok m => .next { State.reset with mem := m, keysDown := s.keysDown, draws := s.draws, inputs := s.inputs }

/-- What an input does (R244). -/
def handleInput (e : Input) (s : State) : Result :=
  match e with
  | .cycle => cycle s
  | .tick => .next (tick s)
  | .keys down => .next (presentKeys down s)
  | .keyPress k => .next (pressKey k s)
  | .redrawAck => .next (acknowledgeRedraw s)
  | .stop => .next (stop s)
  | .reset program => restart program s

/-- Which agent moves next: the oldest input due, or else the instruction agent (R7, R241; log entry 4). -/
def nextTurn (s : State) : Result :=
  match s.inputs with
  | [] => cycle s
  | e :: rest => handleInput e { s with inputs := rest }

/-- Place one instruction word where the next cycle fetches it and give that cycle its turn: the word at `pc` (at the entry point 512 where
no word at `pc` can be fetched), the mode Running, no input due (log entry 6). -/
def placeWord (op : Word) (s : State) : State :=
  let a : Word := if s.pc.toNat + 1 ≤ 4095 then s.pc else 512
  { s with pc := a, mode := .running, inputs := [], mem := s.mem.writeBytes a.toNat (bytesOf op) }

end Sys2Proof.Machine
end

