-- ==== Sys2Proof/Machine/Step.lean ====
section
/-!
DEFINITION. One step of the machine: one atomic step of one agent (spec/00_scope.md R7).
-/

namespace Sys2Proof.Machine

/-- One step: the oldest input due, or else a cycle of the instruction agent (R7, R104, R241). -/
def step (s : State) : Host.Outcome State Fault Refusal := nextTurn s

/-- The state in which the very next step fetches and runs the instruction word of these bits (log entry 6). -/
def State.withFetchWord (s : State) (nbits w : Nat) : State := placeWord (wordOfBits nbits w) s

end Sys2Proof.Machine
end

