-- ==== Sys2Proof/WellFormed.lean ====
section
/-!
DEFINITION. The checks on raw data. A term of `Instr` needs none: its operands have exactly the widths of their fields (R20, R96).
What can be ill-formed is a fetched word (spec/30_encoding.md R95, R99) and a program image (spec/70_reset_and_hazards.md R273).
-/

namespace Sys2Proof

/-- One row of the opcode map: the words `w` with `w &&& mask = value` (R95). -/
structure Pattern where
  mask  : Word
  value : Word
  deriving DecidableEq, Repr

/-- A word matches a row when its literal bits are the row's (R95). -/
def Pattern.covers (p : Pattern) (w : Word) : Bool := w &&& p.mask == p.value

/-- The mask and match columns of the 34 rows of R95, families 0 to 7. -/
def patternsLow : List Pattern :=
  [ ⟨0xFFFF, 0x00E0⟩  -- 00E0 CLS
  , ⟨0xFFFF, 0x00EE⟩  -- 00EE RET
  , ⟨0xF000, 0x1000⟩  -- 1nnn JP nnn
  , ⟨0xF000, 0x2000⟩  -- 2nnn CALL nnn
  , ⟨0xF000, 0x3000⟩  -- 3xkk SE Vx, kk
  , ⟨0xF000, 0x4000⟩  -- 4xkk SNE Vx, kk
  , ⟨0xF00F, 0x5000⟩  -- 5xy0 SE Vx, Vy
  , ⟨0xF000, 0x6000⟩  -- 6xkk LD Vx, kk
  , ⟨0xF000, 0x7000⟩  -- 7xkk ADD Vx, kk
  ]

/-- The rows of family 8 (R95, R97). -/
def patternsAlu : List Pattern :=
  [ ⟨0xF00F, 0x8000⟩  -- 8xy0 LD Vx, Vy
  , ⟨0xF00F, 0x8001⟩  -- 8xy1 OR Vx, Vy
  , ⟨0xF00F, 0x8002⟩  -- 8xy2 AND Vx, Vy
  , ⟨0xF00F, 0x8003⟩  -- 8xy3 XOR Vx, Vy
  , ⟨0xF00F, 0x8004⟩  -- 8xy4 ADD Vx, Vy
  , ⟨0xF00F, 0x8005⟩  -- 8xy5 SUB Vx, Vy
  , ⟨0xF00F, 0x8006⟩  -- 8xy6 SHR Vx, Vy
  , ⟨0xF00F, 0x8007⟩  -- 8xy7 SUBN Vx, Vy
  , ⟨0xF00F, 0x800E⟩  -- 8xyE SHL Vx, Vy
  ]

/-- The rows of families 9 to F (R95, R98). -/
def patternsHigh : List Pattern :=
  [ ⟨0xF00F, 0x9000⟩  -- 9xy0 SNE Vx, Vy
  , ⟨0xF000, 0xA000⟩  -- Annn LD I, nnn
  , ⟨0xF000, 0xB000⟩  -- Bnnn JP V0, nnn
  , ⟨0xF000, 0xC000⟩  -- Cxkk RND Vx, kk
  , ⟨0xF000, 0xD000⟩  -- Dxyn DRW Vx, Vy, n
  , ⟨0xF0FF, 0xE09E⟩  -- Ex9E SKP Vx
  , ⟨0xF0FF, 0xE0A1⟩  -- ExA1 SKNP Vx
  , ⟨0xF0FF, 0xF007⟩  -- Fx07 LD Vx, DT
  , ⟨0xF0FF, 0xF00A⟩  -- Fx0A LD Vx, K
  , ⟨0xF0FF, 0xF015⟩  -- Fx15 LD DT, Vx
  , ⟨0xF0FF, 0xF018⟩  -- Fx18 LD ST, Vx
  , ⟨0xF0FF, 0xF01E⟩  -- Fx1E ADD I, Vx
  , ⟨0xF0FF, 0xF029⟩  -- Fx29 LD F, Vx
  , ⟨0xF0FF, 0xF033⟩  -- Fx33 LD B, Vx
  , ⟨0xF0FF, 0xF055⟩  -- Fx55 LD [I], Vx
  , ⟨0xF0FF, 0xF065⟩  -- Fx65 LD Vx, [I]
  ]

/-- The complete opcode map of R95. -/
def opcodeMap : List Pattern := patternsLow ++ patternsAlu ++ patternsHigh

/-- A word is legal when some row of R95 matches it. Every other word is illegal (R99). -/
def legalWord (w : Word) : Bool := opcodeMap.any fun p => p.covers w

/-- A program image fits when it ends at or below the top of memory: at most 3584 bytes (R273). -/
def imageFits (program : List Byte) : Bool := Config.progBase + program.length ≤ Config.memSize

end Sys2Proof
end

