-- ==== Sys2Proof/Safety.lean ====
section
/-!
DEFINITION. The terms claims are made in: what an instruction leaves unchanged, the fault table of R230, a sprite's image, the invariant of
R43, and safe runs. Nothing here is part of the machine.
-/

namespace Sys2Proof.Machine

/-- Every byte of memory reads as before. -/
def SameBytes (s t : State) : Prop := ∀ a, t.mem.read a = s.mem.read a

/-- Every byte of memory outside the `len` bytes at `base` reads as before. -/
def SameBytesOutside (base len : Nat) (s t : State) : Prop :=
  ∀ a, a < base ∨ base + len ≤ a → t.mem.read a = s.mem.read a

/-- Nothing but the general registers of `ws` differs: every other register, `I`, `PC`, the stack, the timers, memory, the framebuffer, `RP`,
the mode, the fault record and the model's own fields are as before. -/
structure OnlyRegs (ws : List Reg) (s t : State) : Prop where
  regs  : ∀ z, z ∉ ws → t.reg z = s.reg z
  bytes : SameBytes s t
  rest  : t = { s with v := t.v }

/-- Nothing but the program counter differs. -/
structure OnlyPc (s t : State) : Prop where
  regs  : ∀ z, t.reg z = s.reg z
  bytes : SameBytes s t
  rest  : t = { s with pc := t.pc }

/-- Nothing but memory differs, and there only the `len` bytes at `base`. -/
structure OnlyBytes (base len : Nat) (s t : State) : Prop where
  regs  : ∀ z, t.reg z = s.reg z
  bytes : SameBytesOutside base len s t
  rest  : t = { s with mem := t.mem }

/-- Taking a fault with this record: the mode and the record are written and nothing else (R236, R237). -/
def TakesFault (kind : FaultKind) (ia : Word) (op : Option Word) (addr : Option Nat) (s t : State) : Prop :=
  t = { s with mode := .faulted, fault := some { kind := kind, ia := ia, op := op, addr := addr } }

/-- The next instruction fetch from this state fails (R90). -/
def NextFetchFails (t : State) : Prop := ∃ a, fetch t = .error a

/-- The table of R230, its rows that an instruction's handler raises: the kind and the recorded address of the fault that the instruction
takes in this state, if it takes one. -/
def handlerFault (i : Instr) (s : State) : Option (FaultKind × Option Nat) :=
  match i with
  | .call _ => if s.sp.val = 16 then some (.stackOverflow, none) else none
  | .ret => if s.sp.val = 0 then some (.stackUnderflow, none) else none
  | .drw _ _ n => if 1 ≤ n.val ∧ s.i.toNat + n.val - 1 > 4095 then some (.memoryFault, some (max s.i.toNat 4096)) else none
  | .ldB _ => if s.i.toNat + 2 > 4095 then some (.memoryFault, some (max s.i.toNat 4096)) else none
  | .storeRegs x => if s.i.toNat + x.val > 4095 then some (.memoryFault, some (max s.i.toNat 4096)) else none
  | .loadRegs x => if s.i.toNat + x.val > 4095 then some (.memoryFault, some (max s.i.toNat 4096)) else none
  | _ => none

/-- The general registers that an instruction may write, explicitly or as its flag (R22). The key wait Fx0A writes none: its write comes with
the key press (R212). -/
def writtenRegs (i : Instr) : List Reg :=
  match i with
  | .ldByte x _ | .addByte x _ | .rnd x _ => [x]
  | .ldReg x _ | .orReg x _ | .andReg x _ | .xorReg x _ => [x]
  | .addReg x _ | .subReg x _ | .shr x _ | .subn x _ | .shl x _ => [x, 15]
  | .ldVxDT x => [x]
  | .drw _ _ _ => [15]
  | .loadRegs x => (List.finRange 16).filter fun z => z ≤ x
  | _ => []

/-- The image of a sprite of `n` rows at `base`, drawn at column `px` and row `py`, has pixel `(u, v)` set: some set bit `7 - c` of some
row `r` goes there, each coordinate wrapping separately (R191). -/
def SpriteSets (m : Memory) (base n px py : Nat) (u : Fin 64) (v : Fin 32) : Prop :=
  ∃ r < n, ∃ c < 8, (m.read (base + r)).getLsbD (7 - c) = true ∧ (px + c) % 64 = u.val ∧ (py + r) % 32 = v.val

/-- What every fault record satisfies: an address exactly for a `MemoryFault`, outside memory, and a word but for a fetch fault (R37, R230). -/
structure FaultRecord.Ok (f : FaultRecord) : Prop where
  addr_iff : f.addr.isSome = true ↔ f.kind = .memoryFault
  addr_out : ∀ a, f.addr = some a → 4096 ≤ a ∧ a ≤ 65535
  op_none  : f.op = none → f.kind = .memoryFault

/-- The invariant of R43, with what the mode says of the fault record (R36, R37): memory is canonical, `PC` is at most 4350, every held return
address is in 2 to 4096, and there is a well-formed record when the mode is Faulted and none while the program can still run. -/
structure Inv (s : State) : Prop where
  mem     : s.mem.wf
  pc      : s.pc.toNat ≤ 4350
  stack   : ∀ k : Fin 16, k.val < s.sp.val → 2 ≤ s.stack[k].toNat ∧ s.stack[k].toNat ≤ 4096
  running : s.mode = .running → s.fault = none
  waiting : ∀ x, s.mode = .waitingForKey x → s.fault = none
  faulted : s.mode = .faulted → ∃ f, s.fault = some f
  record  : ∀ f, s.fault = some f → f.Ok

/-- The byte `b` is what the address `a` holds when the `len` bytes `stored` have been put at `base` upward over the memory of `s`. -/
def ByteAfterStore (s : State) (base len : Nat) (stored : Nat → Byte) (a : Nat) (b : Byte) : Prop :=
  (∀ k < len, base + k = a → b = stored k) ∧ ((∀ k < len, base + k ≠ a) → b = s.mem.read a)

/-- A run of `k` steps is safe when it answers a next state in which no fault has been raised (R236: a fault is never a successful end).
DESIGN CHOICE: what a model takes as the end of a run is the spec's open parameter `END_OF_RUN` (R6, R285, D19). The machine has no end of a run
of its own, and this definition observes it after `k` steps, for a `k` that the claim names (log entry 23). -/
def SafeRun (k : Nat) (s : State) : Prop := ∃ t, Host.Core.run core k s = .next t ∧ t.fault = none

end Sys2Proof.Machine
end

