-- ==== Sys2Proof/Certificates/Slice0/Obligations.lean ====
section
/-!
DEFINITION. The statements for the provers. In the statements about `exec`, `s` is the state in which `PC` already holds `ia + 2` (R91), so
`s.pc - 2` is the address of the instruction and `s.pc` the address after it.
-/

open Sys2Proof Sys2Proof.Machine

/-! Encoding and decoding (spec/30_encoding.md). -/

/-- Decoding the stored bytes of any instruction gives the instruction back, every operand at every value, and leaves the bytes behind it. -/
def Obligations.DecodeOfEncodeIsIdentity : Prop :=
  ∀ (i : Instr) (rest : List Byte), decode (encodeBytes i ++ rest) = .ok (i, rest)

/-- Bytes that decode to an instruction are the stored bytes of that instruction: each word has one meaning. -/
def Obligations.EncodeOfDecodeIsIdentity : Prop :=
  ∀ (bs rest : List Byte) (i : Instr), decode bs = .ok (i, rest) → bs = encodeBytes i ++ rest

/-- The decoder, which follows the selectors of R97 and R98, accepts exactly the words that a mask and match row of R95 covers, and rejects
every other word by name (the strict decode of the spec's decision D3). -/
def Obligations.DecoderAcceptsExactlyTheOpcodeMap : Prop :=
  ∀ w : Word, (legalWord w = true → ∃ i, decodeWord w = .ok i) ∧
    (legalWord w = false → decodeWord w = .error (.unknownOpcode w))

/-- The illegal words are exactly the six classes (a) to (f) of R99 (the strict decode of the spec's decision D3). -/
def Obligations.IllegalWordsAreTheSixClasses : Prop :=
  ∀ (w : Word) (f : Fields), f = fieldsOf w →
    (legalWord w = false ↔
      (f.t = 0x0 ∧ f.nnn ≠ 0x0E0 ∧ f.nnn ≠ 0x0EE) ∨
      (f.t = 0x5 ∧ f.n ≠ 0) ∨
      (f.t = 0x8 ∧ f.n ∈ [0x8, 0x9, 0xA, 0xB, 0xC, 0xD, 0xF]) ∨
      (f.t = 0x9 ∧ f.n ≠ 0) ∨
      (f.t = 0xE ∧ f.kk ∉ [0x9E, 0xA1]) ∨
      (f.t = 0xF ∧ f.kk ∉ [0x07, 0x0A, 0x15, 0x18, 0x1E, 0x29, 0x33, 0x55, 0x65]))

/-- No word is covered by two rows of the opcode map, so the order of the rows does not matter (R93). -/
def Obligations.OpcodeRowsAreDisjoint : Prop :=
  ∀ w : Word, (opcodeMap.filter fun p => p.covers w).length ≤ 1

/-- Sanity: the words of spec/95_test_vectors.md 2.1 decode as its table says. -/
def Obligations.SpecTableOfWordsDecodes : Prop :=
  decodeWord 0xD012 = .ok (.drw 0 1 2) ∧ decodeWord 0x8ABE = .ok (.shl 0xA 0xB) ∧ decodeWord 0xF365 = .ok (.loadRegs 3) ∧
  decodeWord 0xBFFF = .ok (.jpV0 0xFFF) ∧ decodeWord 0x00E0 = .ok .cls ∧ decodeWord 0x0000 = .error (.unknownOpcode 0x0000) ∧
  decodeWord 0x00F0 = .error (.unknownOpcode 0x00F0) ∧ decodeWord 0x0EE0 = .error (.unknownOpcode 0x0EE0) ∧
  decodeWord 0x5121 = .error (.unknownOpcode 0x5121) ∧ decodeWord 0x912F = .error (.unknownOpcode 0x912F) ∧
  decodeWord 0x8018 = .error (.unknownOpcode 0x8018) ∧ decodeWord 0xE09F = .error (.unknownOpcode 0xE09F) ∧
  decodeWord 0xF075 = .error (.unknownOpcode 0xF075) ∧ decodeWord 0xFFFF = .error (.unknownOpcode 0xFFFF)

/-! The cycle. -/

/-- In the mode Running, when the two bytes at `PC` decode to `i`, a step of the instruction agent is `exec i` of the state with `PC` two
further: with no input due, and when an input gives the instruction agent its turn. -/
def Obligations.StepRunsDecodedInstruction : Prop :=
  ∀ (s : State) (i : Instr), s.mode = .running → s.pc.toNat + 1 ≤ 4095 →
    decode [s.mem.read s.pc.toNat, s.mem.read (s.pc.toNat + 1)] = .ok (i, []) →
    (s.inputs = [] → step s = exec i { s with pc := s.pc + 2 }) ∧
    (∀ rest, s.inputs = .cycle :: rest → step s = exec i { s with pc := s.pc + 2, inputs := rest })

/-- A fetch at 4095 or above takes a `MemoryFault` that leaves `PC` where it is and records no word (R90). The recorded address, `PC` if
it is above 4095, else `PC + 1`, is the spec's decision D26; the record's form and that nothing else changes are its decisions D7 and D8 (R37,
R237). -/
def Obligations.FetchBeyondMemoryFaults : Prop :=
  ∀ s : State, s.inputs = [] → s.mode = .running → 4095 ≤ s.pc.toNat →
    ∃ t, step s = .next t ∧
      TakesFault .memoryFault s.pc none (some (if s.pc.toNat > 4095 then s.pc.toNat else s.pc.toNat + 1)) s t

/-- A fetched word that no row of the opcode map covers takes an `UnknownOpcode` fault, with `PC` already advanced, recording the word and
its address (R99, R234). -/
def Obligations.UnknownOpcodeIsReported : Prop :=
  ∀ (s : State) (w : Word), s.inputs = [] → s.mode = .running → s.pc.toNat + 1 ≤ 4095 →
    w = joinBytes (s.mem.read s.pc.toNat) (s.mem.read (s.pc.toNat + 1)) → legalWord w = false →
    ∃ t, step s = .next t ∧ TakesFault .unknownOpcode s.pc (some w) none { s with pc := s.pc + 2 } t

/-- Outside the mode Running the instruction agent's turn changes nothing (R36, R90). That such a turn is a step at all is the model's
(log entry 7). -/
def Obligations.NoCycleOutsideRunning : Prop :=
  ∀ s : State, s.mode ≠ .running →
    (s.inputs = [] → step s = .next s) ∧ (∀ rest, s.inputs = .cycle :: rest → step s = .next { s with inputs := rest })

/-! Control transfer (spec/40_flow.md). -/

/-- 00EE pops the return address, or takes `StackUnderflow` on an empty stack with `PC` and `SP` left (R120, R233). What
the record holds and that the fault changes nothing else are the spec's decisions D7 and D8 (R37, R237). -/
def Obligations.RetReturnsToThePoppedAddress : Prop :=
  decodeWord 0x00EE = .ok .ret ∧
  ∀ s : State,
    (∀ top : Fin 16, s.sp.val = top.val + 1 →
      ∃ t, exec .ret s = .next t ∧ t.sp.val = top.val ∧ t.pc = s.stack[top] ∧ (∀ z, t.reg z = s.reg z) ∧ SameBytes s t ∧
        t = { s with sp := t.sp, pc := t.pc } ∧ (4095 ≤ t.pc.toNat → NextFetchFails t)) ∧
    (s.sp.val = 0 → ∃ t, exec .ret s = .next t ∧ TakesFault .stackUnderflow (s.pc - 2) (some 0x00EE) none s t)

/-- 1nnn jumps to `nnn`; the target is not checked, and 4095 faults at the next fetch (R121). -/
def Obligations.JumpGoesToTheAddress : Prop :=
  ∀ (nnn : Addr) (s : State), decodeWord (0x1#4 ++ nnn) = .ok (.jp nnn) ∧
    ∃ t, exec (.jp nnn) s = .next t ∧ t.pc.toNat = nnn.toNat ∧ OnlyPc s t ∧ (nnn.toNat = 4095 → NextFetchFails t)

/-- 2nnn pushes the address after the call and jumps, or takes `StackOverflow` on a full stack with nothing pushed. Which slot a push writes
is the spec's decision D22 (R29). -/
def Obligations.CallPushesTheReturnAddress : Prop :=
  ∀ (nnn : Addr) (s : State), decodeWord (0x2#4 ++ nnn) = .ok (.call nnn) ∧
    (s.sp.val < 16 →
      ∃ t, exec (.call nnn) s = .next t ∧ t.pc.toNat = nnn.toNat ∧ t.sp.val = s.sp.val + 1 ∧
        (∀ k : Fin 16, t.stack[k] = if k.val = s.sp.val then s.pc else s.stack[k]) ∧ (∀ z, t.reg z = s.reg z) ∧ SameBytes s t ∧
        t = { s with sp := t.sp, stack := t.stack, pc := t.pc }) ∧
    (s.sp.val = 16 →
      ∃ t, exec (.call nnn) s = .next t ∧ TakesFault .stackOverflow (s.pc - 2) (some (0x2#4 ++ nnn)) none s t)

/-- 3xkk and 4xkk skip on a register equal to, or different from, a constant (R123, R124). -/
def Obligations.SkipsOnConstant : Prop :=
  ∀ (x : Reg) (kk : Byte) (s : State),
    decodeWord (0x3#4 ++ nibble x ++ kk) = .ok (.seByte x kk) ∧ decodeWord (0x4#4 ++ nibble x ++ kk) = .ok (.sneByte x kk) ∧
    (∃ t, exec (.seByte x kk) s = .next t ∧ t.pc = (if s.reg x = kk then s.pc + 2 else s.pc) ∧ OnlyPc s t) ∧
    (∃ t, exec (.sneByte x kk) s = .next t ∧ t.pc = (if s.reg x = kk then s.pc else s.pc + 2) ∧ OnlyPc s t)

/-- 5xy0 and 9xy0 skip on two registers equal, or different; another low nibble is illegal, which rests on the strict decode of
the spec's decision D3 (R125, R126). -/
def Obligations.SkipsOnRegisters : Prop :=
  ∀ (x y : Reg) (s : State),
    decodeWord (0x5#4 ++ nibble x ++ nibble y ++ 0x0#4) = .ok (.seReg x y) ∧
    decodeWord (0x9#4 ++ nibble x ++ nibble y ++ 0x0#4) = .ok (.sneReg x y) ∧
    (∀ n : BitVec 4, n ≠ 0 → legalWord (0x5#4 ++ nibble x ++ nibble y ++ n) = false ∧ legalWord (0x9#4 ++ nibble x ++ nibble y ++ n) = false) ∧
    (∃ t, exec (.seReg x y) s = .next t ∧ t.pc = (if s.reg x = s.reg y then s.pc + 2 else s.pc) ∧ OnlyPc s t) ∧
    (∃ t, exec (.sneReg x y) s = .next t ∧ t.pc = (if s.reg x = s.reg y then s.pc else s.pc + 2) ∧ OnlyPc s t)

/-- Bnnn jumps to `nnn + V[0]`, a sum that is not reduced; a target of 4095 or more faults at the next fetch (R127). -/
def Obligations.IndexedJumpAddsRegisterZero : Prop :=
  ∀ (nnn : Addr) (s : State), decodeWord (0xB#4 ++ nnn) = .ok (.jpV0 nnn) ∧
    ∃ t, exec (.jpV0 nnn) s = .next t ∧ t.pc.toNat = nnn.toNat + (s.reg 0).toNat ∧ OnlyPc s t ∧
      (4095 ≤ nnn.toNat + (s.reg 0).toNat → NextFetchFails t)

/-- A return after a call, whatever happened between them short of the stack, resumes after the call with the stack pointer as before it. -/
def Obligations.ReturnUndoesCall : Prop :=
  ∀ (nnn : Addr) (s t u : State), s.sp.val < 16 → exec (.call nnn) s = .next t → u.sp = t.sp → u.stack = t.stack →
    ∃ w, exec .ret u = .next w ∧ w.pc = s.pc ∧ w.sp = s.sp

/-! Register loads, arithmetic, logic, shifts, random (spec/41_alu.md). -/

/-- 6xkk loads a constant and 7xkk adds one modulo 256, with no flag (R140, R141). -/
def Obligations.LoadsAndAddsConstant : Prop :=
  ∀ (x : Reg) (kk : Byte) (s : State),
    decodeWord (0x6#4 ++ nibble x ++ kk) = .ok (.ldByte x kk) ∧ decodeWord (0x7#4 ++ nibble x ++ kk) = .ok (.addByte x kk) ∧
    (∃ t, exec (.ldByte x kk) s = .next t ∧ t.reg x = kk ∧ OnlyRegs [x] s t) ∧
    (∃ t, exec (.addByte x kk) s = .next t ∧ (t.reg x).toNat = ((s.reg x).toNat + kk.toNat) % 256 ∧ OnlyRegs [x] s t)

/-- 8xy0 copies a register (R142). That the low nibble 0 is the copy is the spec's general knowledge K4. -/
def Obligations.CopiesRegister : Prop :=
  ∀ (x y : Reg) (s : State), decodeWord (0x8#4 ++ nibble x ++ nibble y ++ 0x0#4) = .ok (.ldReg x y) ∧
    ∃ t, exec (.ldReg x y) s = .next t ∧ t.reg x = s.reg y ∧ OnlyRegs [x] s t

/-- 8xy1, 8xy2 and 8xy3 are the bitwise operations; that they leave VF alone (unless it is the destination) is the spec's decision D25,
and that the low nibbles 1, 2 and 3 select them is its general knowledge K4 (R143, R144, R145). -/
def Obligations.LogicIsBitwise : Prop :=
  ∀ (x y : Reg) (s : State),
    decodeWord (0x8#4 ++ nibble x ++ nibble y ++ 0x1#4) = .ok (.orReg x y) ∧
    decodeWord (0x8#4 ++ nibble x ++ nibble y ++ 0x2#4) = .ok (.andReg x y) ∧
    decodeWord (0x8#4 ++ nibble x ++ nibble y ++ 0x3#4) = .ok (.xorReg x y) ∧
    (∃ t, exec (.orReg x y) s = .next t ∧ OnlyRegs [x] s t ∧
      ∀ k, (t.reg x).getLsbD k = ((s.reg x).getLsbD k || (s.reg y).getLsbD k)) ∧
    (∃ t, exec (.andReg x y) s = .next t ∧ OnlyRegs [x] s t ∧
      ∀ k, (t.reg x).getLsbD k = ((s.reg x).getLsbD k && (s.reg y).getLsbD k)) ∧
    (∃ t, exec (.xorReg x y) s = .next t ∧ OnlyRegs [x] s t ∧
      ∀ k, (t.reg x).getLsbD k = ((s.reg x).getLsbD k ^^ (s.reg y).getLsbD k))

/-- 8xy4 adds modulo 256 and writes the carry to VF. With `x = 15` the flag is what VF holds: the order of the two writes is the spec's
decision D4 (R154), the low nibble 4 its general knowledge K4. -/
def Obligations.AddWritesSumAndCarry : Prop :=
  ∀ (x y : Reg) (s : State), decodeWord (0x8#4 ++ nibble x ++ nibble y ++ 0x4#4) = .ok (.addReg x y) ∧
    ∃ t, exec (.addReg x y) s = .next t ∧ OnlyRegs [x, 15] s t ∧
      (x ≠ 15 → (t.reg x).toNat = ((s.reg x).toNat + (s.reg y).toNat) % 256) ∧
      (t.reg 15).toNat = if (s.reg x).toNat + (s.reg y).toNat > 255 then 1 else 0

/-- 8xy5 and 8xy7 subtract modulo 256 and write the not-borrow to VF. With `x = 15` the flag is what VF holds: decision D4 (R154).
The low nibbles 5 and 7 are the spec's general knowledge K4. -/
def Obligations.SubtractWritesDifferenceAndNotBorrow : Prop :=
  ∀ (x y : Reg) (s : State) (a b : Nat), a = (s.reg x).toNat → b = (s.reg y).toNat →
    decodeWord (0x8#4 ++ nibble x ++ nibble y ++ 0x5#4) = .ok (.subReg x y) ∧
    decodeWord (0x8#4 ++ nibble x ++ nibble y ++ 0x7#4) = .ok (.subn x y) ∧
    (∃ t, exec (.subReg x y) s = .next t ∧ OnlyRegs [x, 15] s t ∧
      (x ≠ 15 → (t.reg x).toNat = if a ≥ b then a - b else a + 256 - b) ∧ (t.reg 15).toNat = if a ≥ b then 1 else 0) ∧
    (∃ t, exec (.subn x y) s = .next t ∧ OnlyRegs [x, 15] s t ∧
      (x ≠ 15 → (t.reg x).toNat = if b ≥ a then b - a else b + 256 - a) ∧ (t.reg 15).toNat = if b ≥ a then 1 else 0)

/-- 8xy6 and 8xyE shift `V[y]` by one into `V[x]` and write the bit shifted out to VF. With `x = 15` the flag is what VF holds: decision D4
(R154). The low nibbles 6 and E are the spec's general knowledge K4. -/
def Obligations.ShiftsMoveOneBitOut : Prop :=
  ∀ (x y : Reg) (s : State) (b : Nat), b = (s.reg y).toNat →
    decodeWord (0x8#4 ++ nibble x ++ nibble y ++ 0x6#4) = .ok (.shr x y) ∧
    decodeWord (0x8#4 ++ nibble x ++ nibble y ++ 0xE#4) = .ok (.shl x y) ∧
    (∃ t, exec (.shr x y) s = .next t ∧ OnlyRegs [x, 15] s t ∧ (x ≠ 15 → (t.reg x).toNat = b / 2) ∧ (t.reg 15).toNat = b % 2) ∧
    (∃ t, exec (.shl x y) s = .next t ∧ OnlyRegs [x, 15] s t ∧ (x ≠ 15 → (t.reg x).toNat = 2 * b % 256) ∧ (t.reg 15).toNat = b / 128)

/-- Cxkk loads the random draw masked by `kk`: only bits of `kk` can be set. The draw is the free value of log entry 2, and the counter of
draws, which advances by one, is the model's own. -/
def Obligations.RandomIsMasked : Prop :=
  ∀ (x : Reg) (kk : Byte) (s : State), decodeWord (0xC#4 ++ nibble x ++ kk) = .ok (.rnd x kk) ∧
    ∃ t, exec (.rnd x kk) s = .next t ∧ t.reg x = (Config.randomByte s.draws &&& kk) ∧
      (∀ k, kk.getLsbD k = false → (t.reg x).getLsbD k = false) ∧
      (∀ z, z ≠ x → t.reg z = s.reg z) ∧ SameBytes s t ∧ t.draws = s.draws + 1 ∧ t = { s with v := t.v, draws := t.draws }

/-! Address register and memory (spec/42_index_memory.md). -/

/-- Annn sets `I` to the address; Fx29 sets it to five times the whole of `V[x]`, from where no access of up to 15 bytes can fault
(R170, R172). -/
def Obligations.IndexLoadsAddressAndGlyph : Prop :=
  ∀ (nnn : Addr) (x : Reg) (s : State),
    decodeWord (0xA#4 ++ nnn) = .ok (.ldI nnn) ∧ decodeWord (0xF#4 ++ nibble x ++ 0x29#8) = .ok (.ldF x) ∧
    (∃ t, exec (.ldI nnn) s = .next t ∧ t.i.toNat = nnn.toNat ∧ (∀ z, t.reg z = s.reg z) ∧ SameBytes s t ∧ t = { s with i := t.i }) ∧
    (∃ t, exec (.ldF x) s = .next t ∧ t.i.toNat = 5 * (s.reg x).toNat ∧ (∀ len, len ≤ 15 → outOfRange t.i.toNat len = none) ∧
      (∀ z, t.reg z = s.reg z) ∧ SameBytes s t ∧ t = { s with i := t.i })

/-- Fx1E adds a register to `I`, VF untouched and no fault. The reduction modulo 65536 is the spec's decision D5, that VF is untouched its
decision D25 (R171). -/
def Obligations.AddToIndexKeepsSixteenBits : Prop :=
  ∀ (x : Reg) (s : State), decodeWord (0xF#4 ++ nibble x ++ 0x1E#8) = .ok (.addI x) ∧
    ∃ t, exec (.addI x) s = .next t ∧ t.i.toNat = (s.i.toNat + (s.reg x).toNat) % 65536 ∧ (∀ z, t.reg z = s.reg z) ∧ SameBytes s t ∧
      t = { s with i := t.i }

/-- Fx33 stores the three decimal digits of `V[x]` at `I`, `I + 1`, `I + 2` and nothing else, `I` unchanged (R173, and decision D25). -/
def Obligations.StoresDecimalDigits : Prop :=
  (∀ x : Reg, decodeWord (0xF#4 ++ nibble x ++ 0x33#8) = .ok (.ldB x)) ∧
  ∀ (x : Reg) (s : State) (d : Nat), s.i.toNat + 2 ≤ 4095 → d = (s.reg x).toNat →
    ∃ t, exec (.ldB x) s = .next t ∧ OnlyBytes s.i.toNat 3 s t ∧
      (s.mem.wf → (t.mem.read s.i.toNat).toNat = d / 100 ∧ (t.mem.read (s.i.toNat + 1)).toNat = d / 10 % 10 ∧
        (t.mem.read (s.i.toNat + 2)).toNat = d % 10)

/-- Fx55 stores `V[0]` to `V[x]` at `I` upward and nothing else, `I` unchanged (R174, and decision D25). -/
def Obligations.StoresRegisterBlock : Prop :=
  (∀ x : Reg, decodeWord (0xF#4 ++ nibble x ++ 0x55#8) = .ok (.storeRegs x)) ∧
  ∀ (x : Reg) (s : State), s.i.toNat + x.val ≤ 4095 →
    ∃ t, exec (.storeRegs x) s = .next t ∧ OnlyBytes s.i.toNat (x.val + 1) s t ∧
      (s.mem.wf → ∀ z : Reg, z ≤ x → t.mem.read (s.i.toNat + z.val) = s.reg z)

/-- Fx65 loads `V[0]` to `V[x]` from `I` upward and nothing else, `I` unchanged (R175, and decision D25). -/
def Obligations.LoadsRegisterBlock : Prop :=
  (∀ x : Reg, decodeWord (0xF#4 ++ nibble x ++ 0x65#8) = .ok (.loadRegs x)) ∧
  ∀ (x : Reg) (s : State), s.i.toNat + x.val ≤ 4095 →
    ∃ t, exec (.loadRegs x) s = .next t ∧ (∀ z : Reg, z ≤ x → t.reg z = s.mem.read (s.i.toNat + z.val)) ∧
      (∀ z : Reg, x < z → t.reg z = s.reg z) ∧ SameBytes s t ∧ t = { s with v := t.v }

/-- A block load from the place of an earlier block store brings the registers back. -/
def Obligations.BlockLoadRestoresBlockStore : Prop :=
  ∀ (x : Reg) (s t u : State), s.mem.wf → s.i.toNat + x.val ≤ 4095 → exec (.storeRegs x) s = .next t → u.mem = t.mem → u.i = t.i →
    ∃ w, exec (.loadRegs x) u = .next w ∧ ∀ z : Reg, z ≤ x → w.reg z = s.reg z

/-- A store over the next instruction is seen by the very next fetch, whether it overwrites both of its bytes, one, or none: a program may modify
its own code with either storing instruction (decision D21, R72). -/
def Obligations.StoredCodeIsFetched : Prop :=
  ∀ (x : Reg) (s : State), s.mem.wf → s.pc.toNat + 1 ≤ 4095 →
    (s.i.toNat + x.val ≤ 4095 → ∃ t hi lo, exec (.storeRegs x) s = .next t ∧ fetch t = .ok (joinBytes hi lo) ∧
      ∀ stored, stored = (fun k => s.reg (Fin.ofNat 16 k)) →
        ByteAfterStore s s.i.toNat (x.val + 1) stored s.pc.toNat hi ∧ ByteAfterStore s s.i.toNat (x.val + 1) stored (s.pc.toNat + 1) lo) ∧
    (s.i.toNat + 2 ≤ 4095 → ∃ t hi lo, exec (.ldB x) s = .next t ∧ fetch t = .ok (joinBytes hi lo) ∧
      ∀ stored, stored = (fun k => BitVec.ofNat 8 ((s.reg x).toNat / 10 ^ (2 - k) % 10)) →
        ByteAfterStore s s.i.toNat 3 stored s.pc.toNat hi ∧ ByteAfterStore s s.i.toNat 3 stored (s.pc.toNat + 1) lo)

/-! The display (spec/43_display.md). -/

/-- 00E0 clears every pixel and marks redraw pending; a second one, whether or not the host has cleared the mark, leaves the same picture and
the mark set (R190). -/
def Obligations.ClearScreen : Prop :=
  decodeWord 0x00E0 = .ok .cls ∧
  ∀ s : State, ∃ t, exec .cls s = .next t ∧ (∀ u v, t.fb.pixel u v = false) ∧ t.rp = true ∧ (∀ z, t.reg z = s.reg z) ∧ SameBytes s t ∧
    t = { s with fb := t.fb, rp := t.rp } ∧
    ∀ b, ∃ w, exec .cls { t with rp := b } = .next w ∧ w.fb = t.fb ∧ w.rp = true

/-- Dxyn inverts exactly the pixels of the sprite's image, writes VF 1 when a set pixel was among them and 0 otherwise, and marks redraw
pending, for every row count that stays within memory (the row count 0 always does). The coordinates are those before the instruction, also
for `x = 15` or `y = 15`: the spec's decision D4 (R192, R193). -/
def Obligations.DrawInvertsTheSpriteImage : Prop :=
  (∀ (x y : Reg) (n : Fin 16), decodeWord (0xD#4 ++ nibble x ++ nibble y ++ nibble n) = .ok (.drw x y n)) ∧
  ∀ (x y : Reg) (n : Fin 16) (s : State) (img : Fin 64 → Fin 32 → Prop), n.val = 0 ∨ s.i.toNat + n.val - 1 ≤ 4095 →
    img = SpriteSets s.mem s.i.toNat n.val (s.reg x).toNat (s.reg y).toNat →
    ∃ t, exec (.drw x y n) s = .next t ∧
      (∀ u v, img u v → t.fb.pixel u v = !s.fb.pixel u v) ∧ (∀ u v, ¬ img u v → t.fb.pixel u v = s.fb.pixel u v) ∧
      ((∃ u v, img u v ∧ s.fb.pixel u v = true) → t.reg 15 = 1) ∧ ((∀ u v, img u v → s.fb.pixel u v = false) → t.reg 15 = 0) ∧
      t.rp = true ∧ (∀ z, z ≠ 15 → t.reg z = s.reg z) ∧ SameBytes s t ∧ t = { s with v := t.v, fb := t.fb, rp := t.rp }

/-- Drawing the same sprite at the same position twice restores the framebuffer, and the second draw reports a collision exactly when the
first one had set a pixel: the second clause of R194 (a), with the condition that R192 gives it (log entry 22). Neither coordinate register may
be VF, which the first draw writes. -/
def Obligations.DrawingTwiceRestores : Prop :=
  ∀ (x y : Reg) (n : Fin 16) (s t : State) (img : Fin 64 → Fin 32 → Prop), x ≠ 15 → y ≠ 15 → n.val = 0 ∨ s.i.toNat + n.val - 1 ≤ 4095 →
    img = SpriteSets s.mem s.i.toNat n.val (s.reg x).toNat (s.reg y).toNat → exec (.drw x y n) s = .next t →
    ∃ w, exec (.drw x y n) t = .next w ∧ w.fb = s.fb ∧
      ((∃ u v, img u v ∧ s.fb.pixel u v = false) → w.reg 15 = 1) ∧ ((∀ u v, img u v → s.fb.pixel u v = true) → w.reg 15 = 0)

/-- Only 00E0 and Dxyn change the framebuffer or the redraw mark, and no instruction clears the mark (R35, R39). -/
def Obligations.OnlyDisplayInstructionsTouchTheScreen : Prop :=
  ∀ (i : Instr) (s t : State), exec i s = .next t →
    (t.fb ≠ s.fb ∨ t.rp ≠ s.rp → i = .cls ∨ ∃ x y n, i = .drw x y n) ∧ (s.rp = true → t.rp = true)

/-! Keypad and timers (spec/44_keys_timers.md, spec/60_exceptions.md). -/

/-- Ex9E and ExA1 skip on the key whose value is `V[x]`. That no key above 15 is held is the spec's decision D12 (R210, R211, R213). -/
def Obligations.SkipsOnKey : Prop :=
  (∀ x : Reg, decodeWord (0xE#4 ++ nibble x ++ 0x9E#8) = .ok (.skp x) ∧ decodeWord (0xE#4 ++ nibble x ++ 0xA1#8) = .ok (.sknp x)) ∧
  ∀ (x : Reg) (s : State) (held : Prop), (held ↔ (s.reg x).toNat < 16 ∧ s.keysDown.getLsbD (s.reg x).toNat = true) →
    (∃ t, exec (.skp x) s = .next t ∧ (held → t.pc = s.pc + 2) ∧ (¬ held → t.pc = s.pc) ∧ OnlyPc s t) ∧
    (∃ t, exec (.sknp x) s = .next t ∧ (held → t.pc = s.pc) ∧ (¬ held → t.pc = s.pc + 2) ∧ OnlyPc s t)

/-- Fx0A, its own cycle: the mode becomes WaitingForKey with the destination register, and nothing else changes (R212). -/
def Obligations.KeyWaitBlocks : Prop :=
  ∀ (x : Reg) (s : State), decodeWord (0xF#4 ++ nibble x ++ 0x0A#8) = .ok (.ldVxK x) ∧
    ∃ t, exec (.ldVxK x) s = .next t ∧ t.mode = .waitingForKey x ∧ (∀ z, t.reg z = s.reg z) ∧ SameBytes s t ∧ t = { s with mode := t.mode }

/-- A key press ends the wait: the key's value goes to the register the wait holds and the mode is Running again. In any other mode it has no
effect (R212). What counts as a press is the port's affair (decision D15). -/
def Obligations.KeyPressEndsTheWait : Prop :=
  ∀ (s : State) (k : Fin 16) (rest : List Input), s.inputs = .keyPress k :: rest →
    (∀ x, s.mode = .waitingForKey x →
      ∃ t, step s = .next t ∧ (t.reg x).toNat = k.val ∧ t.mode = .running ∧ (∀ z, z ≠ x → t.reg z = s.reg z) ∧ SameBytes s t ∧
        t = { s with v := t.v, mode := t.mode, inputs := rest }) ∧
    ((∀ x, s.mode ≠ .waitingForKey x) → step s = .next { s with inputs := rest })

/-- Fx07 reads the delay timer and Fx15 sets it. Which of the low bytes 07 and 15 reads is general knowledge of the spec's (K3,
D28; R214, R215). -/
def Obligations.DelayTimerIsReadAndSet : Prop :=
  ∀ (x : Reg) (s : State),
    decodeWord (0xF#4 ++ nibble x ++ 0x07#8) = .ok (.ldVxDT x) ∧ decodeWord (0xF#4 ++ nibble x ++ 0x15#8) = .ok (.ldDTVx x) ∧
    (∃ t, exec (.ldVxDT x) s = .next t ∧ t.reg x = s.dt ∧ OnlyRegs [x] s t) ∧
    (∃ t, exec (.ldDTVx x) s = .next t ∧ t.dt = s.reg x ∧ (∀ z, t.reg z = s.reg z) ∧ SameBytes s t ∧ t = { s with dt := t.dt })

/-- The tone is active exactly while the sound timer is above 0. Fx18 sets the sound timer and nothing else, so the tone then lasts for `V[x]`
ticks, one taken by each (R216, R240, R243). -/
def Obligations.SoundTimerGatesTheTone : Prop :=
  (∀ s : State, toneActive s = true ↔ s.st.toNat > 0) ∧
  ∀ (x : Reg) (s : State), decodeWord (0xF#4 ++ nibble x ++ 0x18#8) = .ok (.ldSTVx x) ∧
    ∃ t, exec (.ldSTVx x) s = .next t ∧ t.st = s.reg x ∧ (∀ z, t.reg z = s.reg z) ∧ SameBytes s t ∧ t = { s with st := t.st } ∧
      (s.mode ≠ .stopped → ∀ k, toneActive (tick^[k] t) = true ↔ k < (s.reg x).toNat)

/-- One tick takes one from each counter above 0, both in the same step, in every mode but Stopped, where it does nothing. That the two
decrements are one step is the spec's decision D14 (R240). -/
def Obligations.TickCountsBothTimersDown : Prop :=
  ∀ (s : State) (rest : List Input), s.inputs = .tick :: rest →
    (s.mode ≠ .stopped →
      ∃ t, step s = .next t ∧ t.dt.toNat = s.dt.toNat - 1 ∧ t.st.toNat = s.st.toNat - 1 ∧
        t = { s with dt := t.dt, st := t.st, inputs := rest }) ∧
    (s.mode = .stopped → step s = .next { s with inputs := rest })

/-- The timer law: `k` ticks with no instruction between them take the delay timer from `d` to `d - k`, and at 0 it stays (R242). -/
def Obligations.TicksTakeTheDelayTimerToZero : Prop :=
  ∀ (k : Nat) (s : State) (rest : List Input), s.inputs = List.replicate k .tick ++ rest → s.mode ≠ .stopped →
    ∃ t, Host.Core.run core k s = .next t ∧ t.dt.toNat = s.dt.toNat - k ∧ t = { s with dt := t.dt, st := t.st, inputs := rest }

/-! Faults, modes and the host (spec/60_exceptions.md, spec/70_reset_and_hazards.md). -/

/-- The faults of the instructions are exactly the rows of R230: where the table names one, the instruction takes it, with the word and the
address recorded and nothing else changed (decisions D7 and D8, R237). Everywhere else it completes with no fault raised. -/
def Obligations.FaultsAreExactlyTheTable : Prop :=
  ∀ (i : Instr) (s : State),
    (∀ kind addr, handlerFault i s = some (kind, addr) →
      ∃ t, exec i s = .next t ∧ TakesFault kind (s.pc - 2) (some (encode i)) addr s t) ∧
    (handlerFault i s = none → ∃ t, exec i s = .next t ∧ t.fault = s.fault ∧ (t.mode = s.mode ∨ ∃ x, i = .ldVxK x))

/-- The mode Faulted is terminal: whatever the host and the timer agent do short of stop and reset, the mode and the record stay and no
register, byte, slot or pixel changes (R236, R239). -/
def Obligations.FaultedIsTerminal : Prop :=
  ∀ (s : State) (e : Input) (rest : List Input), s.mode = .faulted → s.inputs = e :: rest → e ≠ .stop → (∀ p, e ≠ .reset p) →
    ∃ t, step s = .next t ∧
      t = { s with dt := t.dt, st := t.st, rp := t.rp, keysDown := t.keysDown, inputs := rest } ∧ SameBytes s t

/-- After stop nothing of the engine steps: short of a reset only the host's own redraw mark and key lines change, also the timers stand
(decision D18, R248). -/
def Obligations.StoppedIsTerminal : Prop :=
  ∀ (s : State) (e : Input) (rest : List Input), s.mode = .stopped → s.inputs = e :: rest → (∀ p, e ≠ .reset p) →
    ∃ t, step s = .next t ∧ t = { s with rp := t.rp, keysDown := t.keysDown, inputs := rest } ∧ SameBytes s t

/-- Stop moves every mode to Stopped, keeps a fault record and abandons a key wait with its register unwritten (decision D18, R248). -/
def Obligations.StopEndsTheRun : Prop :=
  ∀ (s : State) (rest : List Input), s.inputs = .stop :: rest → step s = .next { s with mode := .stopped, inputs := rest }

/-- The render step: when a redraw is pending the host gets the 2048 pixels in row-major order and the mark is cleared in the same step;
otherwise nothing changes (decisions D17 and D20, R245, R246). -/
def Obligations.RenderTakesSnapshotAndClears : Prop :=
  ∀ (s : State) (rest : List Input), s.inputs = .redrawAck :: rest →
    step s = .next { s with rp := false, inputs := rest } ∧
    (s.rp = true → ∃ picture, render s = some (picture, { s with rp := false }) ∧
      ∀ (u : Fin 64) (v : Fin 32), picture[v.val * 64 + u.val]? = some (s.fb.pixel u v)) ∧
    (s.rp = false → render s = none)

/-- The state after reset: entry point 512, mode Running, no fault, no pixel set, the font at 0 to 79. The zero values of `V`, `I`, `SP`, the
slots, the timers, `RP` and the rest of memory are the spec's decisions D9 and D10 (R40). -/
def Obligations.ResetState : Prop :=
  State.reset.pc.toNat = 512 ∧ State.reset.mode = .running ∧ State.reset.fault = none ∧
  (∀ u v, State.reset.fb.pixel u v = false) ∧ (∀ k : Fin 80, State.reset.mem.read k.val = Config.font k) ∧
  (∀ a, 80 ≤ a → State.reset.mem.read a = 0) ∧ (∀ z, State.reset.reg z = 0) ∧ State.reset.i = 0 ∧ State.reset.sp = 0 ∧
  (∀ k : Fin 16, State.reset.stack[k] = 0) ∧ State.reset.dt = 0 ∧ State.reset.st = 0 ∧ State.reset.rp = false

/-- The entry point is fixed: after reset, and after a reset in mid-run with any image, `PC` is 512, the first fetch reads the bytes at 512 and
513, and the mode is Running (R271). -/
def Obligations.EntryPointIsFixed : Prop :=
  (State.reset.pc.toNat = 512 ∧ State.reset.mode = .running ∧
    fetch State.reset = .ok (joinBytes (State.reset.mem.read 512) (State.reset.mem.read 513))) ∧
  ∀ (s t : State) (p : List Byte) (rest : List Input), s.inputs = .reset p :: rest → step s = .next t →
    t.pc.toNat = 512 ∧ t.mode = .running ∧ fetch t = .ok (joinBytes (t.mem.read 512) (t.mem.read 513))

/-- A reset loads the image verbatim at 512, over a memory that holds the font and is zero elsewhere, and starts the run; an image of more than
3584 bytes fails with nothing run (decision D24, R273). That a failed load ends the model's run is log entry 9; that the key lines, the draws
and the inputs to come are kept is the model's choice (log entries 2, 3, 4). -/
def Obligations.ResetLoadsTheImage : Prop :=
  ∀ (s : State) (p : List Byte) (rest : List Input), s.inputs = .reset p :: rest →
    (p.length ≤ 3584 →
      ∃ t, step s = .next t ∧ (∀ (k : Nat) (h : k < p.length), t.mem.read (512 + k) = p[k]) ∧
        (∀ k : Fin 80, t.mem.read k.val = Config.font k) ∧
        (∀ a, 80 ≤ a → a < 512 ∨ 512 + p.length ≤ a → t.mem.read a = 0) ∧
        t = { State.reset with mem := t.mem, keysDown := s.keysDown, draws := s.draws, inputs := rest }) ∧
    (3584 < p.length → step s = .fault (.loadFailed 4096))

/-- Every step answers a next state, but for a reset with an image that does not fit. That a turn outside the mode Running is a step that answers
is the model's choice (log entry 7), and that a misfit image ends the run is too (log entry 9). -/
def Obligations.StepAlwaysAnswers : Prop :=
  ∀ s : State, (∃ t, step s = .next t) ∨ ∃ p rest, s.inputs = .reset p :: rest ∧ imageFits p = false

/-! Whole-machine rules. -/

/-- The invariant of R43 holds after reset. -/
def Obligations.ResetMeetsTheInvariant : Prop := Inv State.reset

/-- Every step keeps the invariant of R43, whatever the step is: an instruction, a fault, a tick, a key, a stop, a reset with any image. -/
def Obligations.StepKeepsTheInvariant : Prop :=
  ∀ s t : State, Inv s → step s = .next t → Inv t

/-- Each instruction writes no general register but those of R22; in particular VF is a side effect of 8xy4 to 8xy7, 8xyE and Dxyn only
(R23): that 7xkk, 8xy1, 8xy2, 8xy3 and Fx1E leave it is the spec's decision D25 (log entry 16). -/
def Obligations.RegistersWrittenAreTheTable : Prop :=
  ∀ (i : Instr) (s t : State), exec i s = .next t → ∀ z, z ∉ writtenRegs i → t.reg z = s.reg z

/-- Only Fx33 and Fx55 write memory (R67). -/
def Obligations.OnlyStoresWriteMemory : Prop :=
  ∀ (i : Instr) (s t : State), exec i s = .next t → t.mem ≠ s.mem → (∃ x, i = .ldB x) ∨ ∃ x, i = .storeRegs x

/-- Each special register is written by its own instructions only: `I` by Annn, Fx1E, Fx29; the stack by 2nnn, and `SP` by 2nnn and 00EE; `DT` by
Fx15; `ST` by Fx18 (R25, R28, R34). That Fx33, Fx55, Fx65 and Dxyn leave `I` is the spec's decision D25 (log entry 16). -/
def Obligations.SpecialRegistersHaveTheirWriters : Prop :=
  ∀ (i : Instr) (s t : State), exec i s = .next t →
    (t.i ≠ s.i → (∃ a, i = .ldI a) ∨ (∃ x, i = .addI x) ∨ ∃ x, i = .ldF x) ∧
    (t.stack ≠ s.stack → ∃ a, i = .call a) ∧ (t.sp ≠ s.sp → (∃ a, i = .call a) ∨ i = .ret) ∧
    (t.dt ≠ s.dt → ∃ x, i = .ldDTVx x) ∧ (t.st ≠ s.st → ∃ x, i = .ldSTVx x)

/-- No instruction's behaviour depends on the redraw mark or on the sound timer: changing either changes nothing else of the next state
(R216, R246). -/
def Obligations.OutputsAreNeverObserved : Prop :=
  ∀ (i : Instr) (s t : State) (b : Bool) (c : Byte), exec i s = .next t →
    ∃ w, exec i { s with rp := b, st := c } = .next w ∧ w = { t with rp := w.rp, st := w.st }

/-- Only Ex9E and ExA1 see which keys are held: any other instruction does the same whatever pattern is presented (R210, R244). -/
def Obligations.KeysAreSeenOnlyByTheKeySkips : Prop :=
  ∀ (i : Instr) (s t : State) (down : BitVec 16), (∀ x, i ≠ .skp x) → (∀ x, i ≠ .sknp x) → exec i s = .next t →
    exec i { s with keysDown := down } = .next { t with keysDown := down }

/-! What the host presents and what it is shown. -/

/-- A pattern of held keys that the host presents is the one the next instructions see, whatever the mode, and nothing else changes (R210, R247).
That it stands in the state is the model's (log entry 3). -/
def Obligations.KeysArePresented : Prop :=
  ∀ (s : State) (down : BitVec 16) (rest : List Input), s.inputs = .keys down :: rest →
    ∃ t, step s = .next t ∧ t = { s with keysDown := down, inputs := rest } ∧
      (∀ k : Fin 16, t.keyDown (BitVec.ofNat 8 k.val) = down.getLsbD k.val)

/-- A fault that is taken is presented to the host: the fault line is up and the record is shown. Stop lowers the line and keeps the record; a
reset empties it (R236, R244, R248, R270; the record's form and the list of signals are the spec's decisions D8 and D23, the mode Stopped its
decision D18). -/
def Obligations.FaultIsPresentedToTheHost : Prop :=
  ∀ (kind : FaultKind) (ia : Word) (op : Option Word) (addr : Option Nat) (s t : State), TakesFault kind ia op addr s t →
    faultOutput t = (true, some { kind := kind, ia := ia, op := op, addr := addr }) ∧
    (∀ rest, t.inputs = .stop :: rest →
      ∃ u, step t = .next u ∧ faultOutput u = (false, some { kind := kind, ia := ia, op := op, addr := addr })) ∧
    (∀ p rest, t.inputs = .reset p :: rest → p.length ≤ 3584 → ∃ u, step t = .next u ∧ faultOutput u = (false, none))
end

