-- ==== Sys2Proof/Laws/Decode.lean ====
section
/-!
SUPPORT. The fields of an encoded word, one lemma per format, and the byte order.
-/

namespace Sys2Proof

/-- Storing a word and fetching it gives it back (R64). -/
@[simp] theorem joinBytes_bytesOf (w : Word) : joinBytes (highByte w) (lowByte w) = w := by
  exact (BitVec.extractLsb'_append_extractLsb'_eq_extractLsb' (start₁ := 0) (len₁ := 8) (len₂ := 8) rfl).trans
    BitVec.extractLsb'_eq_self

@[simp] theorem highByte_joinBytes (hi lo : Byte) : highByte (joinBytes hi lo) = hi := BitVec.extractLsb'_append_eq_left

@[simp] theorem lowByte_joinBytes (hi lo : Byte) : lowByte (joinBytes hi lo) = lo := BitVec.extractLsb'_append_eq_right

/-- Decoding the stored bytes of a word is decoding the word (R64). -/
theorem decode_bytesOf (w : Word) (rest : List Byte) :
    decode (bytesOf w ++ rest) = (decodeWord w).map fun i => (i, rest) := by
  simp only [bytesOf, List.cons_append, List.nil_append, decode, joinBytes_bytesOf]

@[simp] theorem toFin_nibble (x : Fin 16) : (nibble x).toFin = x := rfl

/-! The fields that each format's instructions use (R94). -/

@[simp] theorem fieldsOf_encodeNNN_t (t : BitVec 4) (nnn : Addr) : (fieldsOf (encodeNNN t nnn)).t = t := BitVec.extractLsb'_append_eq_left

@[simp] theorem fieldsOf_encodeNNN_nnn (t : BitVec 4) (nnn : Addr) : (fieldsOf (encodeNNN t nnn)).nnn = nnn :=
  BitVec.extractLsb'_append_eq_right

@[simp] theorem fieldsOf_encodeXKK_t (t : BitVec 4) (x : Reg) (kk : Byte) : (fieldsOf (encodeXKK t x kk)).t = t := by
  simp only [fieldsOf, encodeXKK]
  rw [BitVec.extractLsb'_append_eq_of_le (by decide)]
  exact BitVec.extractLsb'_append_eq_left

@[simp] theorem fieldsOf_encodeXKK_x (t : BitVec 4) (x : Reg) (kk : Byte) : (fieldsOf (encodeXKK t x kk)).x = x := by
  simp only [fieldsOf, encodeXKK]
  rw [BitVec.extractLsb'_append_eq_of_le (by decide)]
  exact congrArg BitVec.toFin (BitVec.extractLsb'_append_eq_right (b := nibble x))

@[simp] theorem fieldsOf_encodeXKK_kk (t : BitVec 4) (x : Reg) (kk : Byte) : (fieldsOf (encodeXKK t x kk)).kk = kk :=
  BitVec.extractLsb'_append_eq_right

@[simp] theorem fieldsOf_encodeXYN_t (t : BitVec 4) (x y : Reg) (s : BitVec 4) : (fieldsOf (encodeXYN t x y s)).t = t := by
  simp only [fieldsOf, encodeXYN]
  rw [BitVec.extractLsb'_append_eq_of_le (by decide), BitVec.extractLsb'_append_eq_of_le (by decide)]
  exact BitVec.extractLsb'_append_eq_left

@[simp] theorem fieldsOf_encodeXYN_x (t : BitVec 4) (x y : Reg) (s : BitVec 4) : (fieldsOf (encodeXYN t x y s)).x = x := by
  simp only [fieldsOf, encodeXYN]
  rw [BitVec.extractLsb'_append_eq_of_le (by decide), BitVec.extractLsb'_append_eq_of_le (by decide)]
  exact congrArg BitVec.toFin (BitVec.extractLsb'_append_eq_right (b := nibble x))

@[simp] theorem fieldsOf_encodeXYN_y (t : BitVec 4) (x y : Reg) (s : BitVec 4) : (fieldsOf (encodeXYN t x y s)).y = y := by
  simp only [fieldsOf, encodeXYN]
  rw [BitVec.extractLsb'_append_eq_of_le (by decide)]
  exact congrArg BitVec.toFin (BitVec.extractLsb'_append_eq_right (b := nibble y))

@[simp] theorem fieldsOf_encodeXYN_n (t : BitVec 4) (x y : Reg) (s : BitVec 4) : (fieldsOf (encodeXYN t x y s)).n = s.toFin :=
  congrArg BitVec.toFin (BitVec.extractLsb'_append_eq_right (b := s))

end Sys2Proof
end

