-- ==== Sys2Proof/Laws/Framebuffer.lean ====
section
/-!
SUPPORT. The laws of the framebuffer: one pixel, and what a drawing does to every pixel and to its hit flag.
-/

namespace Sys2Proof.Machine

@[simp] theorem Framebuffer.pixel_clear (x : Fin 64) (y : Fin 32) : Framebuffer.clear.pixel x y = false := by
  simp [Framebuffer.pixel, Framebuffer.clear]

theorem Framebuffer.pixel_setPixel (fb : Framebuffer) (x : Fin 64) (y : Fin 32) (b : Bool) (u : Fin 64) (v : Fin 32) :
    (fb.setPixel x y b).pixel u v = if u = x ∧ v = y then b else fb.pixel u v := by
  simp only [Framebuffer.pixel, Framebuffer.setPixel, Fin.getElem_fin, Vector.getElem_set, Fin.ext_iff]
  by_cases hv : y.val = v.val
  · by_cases hu : x.val = u.val <;> simp [hv, hu, eq_comm]
  · simp [hv, eq_comm]

/-- Two framebuffers with the same pixels are equal. -/
theorem Framebuffer.ext {f g : Framebuffer} (h : ∀ x y, f.pixel x y = g.pixel x y) : f = g := by
  apply Vector.ext
  intro y hy
  apply Vector.ext
  intro x hx
  exact h ⟨x, hx⟩ ⟨y, hy⟩

/-- `Drawing.plot` at coordinates already reduced. -/
def Drawing.plotAt (d : Drawing) (p : Fin 64 × Fin 32) : Drawing :=
  { fb := d.fb.setPixel p.1 p.2 (!d.fb.pixel p.1 p.2), hit := d.hit || d.fb.pixel p.1 p.2 }

theorem Drawing.plot_eq (d : Drawing) (cx cy : Nat) : d.plot cx cy = d.plotAt (Fin.ofNat 64 cx, Fin.ofNat 32 cy) := rfl

theorem Drawing.pixel_plotAt (d : Drawing) (p : Fin 64 × Fin 32) (u : Fin 64) (v : Fin 32) :
    (d.plotAt p).fb.pixel u v = (d.fb.pixel u v ^^ decide ((u, v) = p)) := by
  obtain ⟨x, y⟩ := p
  simp only [Drawing.plotAt, Framebuffer.pixel_setPixel, Prod.mk.injEq]
  split_ifs with h
  · simp [h.1, h.2]
  · simp [h]

/-- Plotting distinct pixels inverts exactly those pixels. -/
theorem Drawing.pixel_foldl_plotAt {ps : List (Fin 64 × Fin 32)} (h : ps.Nodup) (d : Drawing) (u : Fin 64) (v : Fin 32) :
    (ps.foldl Drawing.plotAt d).fb.pixel u v = (d.fb.pixel u v ^^ decide ((u, v) ∈ ps)) := by
  induction ps generalizing d with
  | nil => simp
  | cons p ps ih =>
    obtain ⟨hp, hps⟩ := List.nodup_cons.mp h
    rw [List.foldl_cons, ih hps, Drawing.pixel_plotAt]
    by_cases hup : (u, v) = p
    · have : (u, v) ∉ ps := hup ▸ hp
      simp [hup, hp]
    · simp [hup]

/-- Plotting distinct pixels hits exactly when one of them was set. -/
theorem Drawing.hit_foldl_plotAt {ps : List (Fin 64 × Fin 32)} (h : ps.Nodup) (d : Drawing) :
    (ps.foldl Drawing.plotAt d).hit = (d.hit || ps.any fun p => d.fb.pixel p.1 p.2) := by
  induction ps generalizing d with
  | nil => simp
  | cons p ps ih =>
    obtain ⟨hp, hps⟩ := List.nodup_cons.mp h
    have : (ps.any fun q => (d.plotAt p).fb.pixel q.1 q.2) = ps.any fun q => d.fb.pixel q.1 q.2 := by
      rw [Bool.eq_iff_iff, List.any_eq_true, List.any_eq_true]
      refine exists_congr fun q => and_congr_right fun hq => ?_
      have hne : (q.1, q.2) ≠ p := fun e => hp (by rw [← e]; exact hq)
      rw [Drawing.pixel_plotAt, decide_eq_false hne, Bool.xor_false]
    rw [List.foldl_cons, ih hps, this, List.any_cons, ← Bool.or_assoc]
    rfl

/-- The pixels that one sprite row at column `px` and row `py` sets (R191). -/
def rowPoints (px py : Nat) (b : Byte) : List (Fin 64 × Fin 32) :=
  ((List.range 8).filter fun c => b.getLsbD (7 - c)).map fun c => (Fin.ofNat 64 (px + c), Fin.ofNat 32 py)

/-- The pixels that a sprite sets (R191). -/
def spritePoints (px : Nat) : Nat → List Byte → List (Fin 64 × Fin 32)
  | _, [] => []
  | py, b :: bs => rowPoints px py b ++ spritePoints px (py + 1) bs

theorem Drawing.row_eq (px py : Nat) (b : Byte) (d : Drawing) : d.row px py b = (rowPoints px py b).foldl Drawing.plotAt d := by
  rw [rowPoints, List.foldl_map, List.foldl_filter]; rfl

theorem Drawing.rows_eq (px py : Nat) (bs : List Byte) (d : Drawing) :
    Drawing.rows px py bs d = (spritePoints px py bs).foldl Drawing.plotAt d := by
  induction bs generalizing py d with
  | nil => rfl
  | cons b bs ih => rw [Drawing.rows, ih, spritePoints, List.foldl_append, Drawing.row_eq]

theorem mem_rowPoints {px py : Nat} {b : Byte} {u : Fin 64} {v : Fin 32} :
    (u, v) ∈ rowPoints px py b ↔ ∃ c < 8, b.getLsbD (7 - c) = true ∧ (px + c) % 64 = u.val ∧ py % 32 = v.val := by
  simp only [rowPoints, List.mem_map, List.mem_filter, List.mem_range, Prod.mk.injEq, Fin.ext_iff, Fin.val_ofNat]
  constructor
  · rintro ⟨c, ⟨hc, hb⟩, hu, hv⟩; exact ⟨c, hc, hb, hu, hv⟩
  · rintro ⟨c, hc, hb, hu, hv⟩; exact ⟨c, ⟨hc, hb⟩, hu, hv⟩

theorem mem_spritePoints {px py : Nat} {bs : List Byte} {u : Fin 64} {v : Fin 32} :
    (u, v) ∈ spritePoints px py bs ↔
      ∃ (r : Nat) (h : r < bs.length), ∃ c < 8, bs[r].getLsbD (7 - c) = true ∧ (px + c) % 64 = u.val ∧ (py + r) % 32 = v.val := by
  induction bs generalizing py with
  | nil => simp [spritePoints]
  | cons b bs ih =>
    rw [spritePoints, List.mem_append, mem_rowPoints, ih]
    constructor
    · rintro (⟨c, hc, hb, hu, hv⟩ | ⟨r, hr, c, hc, hb, hu, hv⟩)
      · exact ⟨0, by simp, c, hc, hb, hu, hv⟩
      · exact ⟨r + 1, by simpa using hr, c, hc, hb, hu, by rw [← hv]; congr 1; omega⟩
    · rintro ⟨_ | r, hr, c, hc, hb, hu, hv⟩
      · exact .inl ⟨c, hc, hb, hu, hv⟩
      · exact .inr ⟨r, by simpa using hr, c, hc, hb, hu, by rw [← hv]; congr 1; omega⟩

theorem nodup_rowPoints (px py : Nat) (b : Byte) : (rowPoints px py b).Nodup := by
  refine List.Nodup.map_on ?_ (List.nodup_range.filter _)
  intro c hc e he h
  simp only [List.mem_filter, List.mem_range] at hc he
  simp only [Prod.mk.injEq, Fin.ext_iff, Fin.val_ofNat] at h
  omega

/-- The pixels of one sprite always land on distinct cells (R191). -/
theorem nodup_spritePoints (px py : Nat) (bs : List Byte) (h : bs.length ≤ 32) : (spritePoints px py bs).Nodup := by
  induction bs generalizing py with
  | nil => exact List.nodup_nil
  | cons b bs ih =>
    simp only [List.length_cons] at h
    refine List.nodup_append'.mpr ⟨nodup_rowPoints px py b, ih (py + 1) (by omega), ?_⟩
    rintro ⟨u, v⟩ h1 h2
    obtain ⟨c, -, -, -, hv⟩ := mem_rowPoints.mp h1
    obtain ⟨r, hr, c', -, -, -, hv'⟩ := mem_spritePoints.mp h2
    omega

/-- What a draw does to each pixel: an exclusive-or with the sprite's image (R192, R194). -/
theorem Framebuffer.pixel_draw (fb : Framebuffer) (px py : Nat) (bs : List Byte) (h : bs.length ≤ 32) (u : Fin 64) (v : Fin 32) :
    (fb.draw px py bs).fb.pixel u v = (fb.pixel u v ^^ decide ((u, v) ∈ spritePoints px py bs)) := by
  rw [Framebuffer.draw, Drawing.rows_eq, Drawing.pixel_foldl_plotAt (nodup_spritePoints px py bs h)]

/-- A draw collides exactly when the sprite's image and the old framebuffer have a set pixel in common (R194). -/
theorem Framebuffer.hit_draw (fb : Framebuffer) (px py : Nat) (bs : List Byte) (h : bs.length ≤ 32) :
    (fb.draw px py bs).hit = true ↔ ∃ u v, (u, v) ∈ spritePoints px py bs ∧ fb.pixel u v = true := by
  rw [Framebuffer.draw, Drawing.rows_eq, Drawing.hit_foldl_plotAt (nodup_spritePoints px py bs h)]
  simp [List.any_eq_true]

end Sys2Proof.Machine
end

