-- ==== Sys2Proof/Laws/Memory.lean ====
section
/-!
SUPPORT. The laws of main memory: a read after a write, cells left alone, the canonical form kept, runs of bytes, and the range check.
-/

namespace Sys2Proof.Machine

@[simp] theorem Memory.read_nil (a : Nat) : Memory.read [] a = Memory.unlisted a := rfl

theorem Memory.read_cons (k : Nat) (c : Byte) (m : Memory) (a : Nat) :
    Memory.read ((k, c) :: m) a = if a = k then c else Memory.read m a := rfl

/-- Reset memory is zero from 80 on (R40). -/
theorem Memory.unlisted_of_le {a : Nat} (h : 80 ≤ a) : Memory.unlisted a = 0 := by
  simp [Memory.unlisted, Nat.not_lt.mpr h]

/-- An address that no entry names reads as its reset contents. -/
theorem Memory.read_of_forall_ne {m : Memory} {a : Nat} (h : ∀ c ∈ m, c.1 ≠ a) : m.read a = Memory.unlisted a := by
  induction m with
  | nil => rfl
  | cons c m ih =>
    have hc : a ≠ c.1 := (h c (by simp)).symm
    rw [show c = (c.1, c.2) from rfl, Memory.read_cons, if_neg hc]
    exact ih fun d hd => h d (by simp [hd])

theorem Memory.read_entry (k : Nat) (b : Byte) {m : Memory} (h : m.read k = Memory.unlisted k) (a : Nat) :
    (Memory.entry k b m).read a = if a = k then b else m.read a := by
  unfold Memory.entry
  split_ifs with hb hak hak
  · rw [hak, h, hb]
  · rfl
  · rw [Memory.read_cons, if_pos hak]
  · rw [Memory.read_cons, if_neg hak]

theorem Memory.read_entry_of_ne (k : Nat) (b : Byte) (m : Memory) {a : Nat} (h : a ≠ k) :
    (Memory.entry k b m).read a = m.read a := by
  unfold Memory.entry
  split_ifs <;> simp [Memory.read_cons, h]

/-- A write leaves every other cell alone (R67). -/
theorem Memory.read_write_of_ne (m : Memory) (k : Nat) (b : Byte) {a : Nat} (h : a ≠ k) : (m.write k b).read a = m.read a := by
  induction m with
  | nil => simp [Memory.write, Memory.read_entry_of_ne k b [] h]
  | cons c m ih =>
    obtain ⟨j, c⟩ := c
    unfold Memory.write
    split_ifs with h1 h2
    · exact Memory.read_entry_of_ne k b _ h
    · rw [Memory.read_entry_of_ne k b m h, Memory.read_cons, if_neg (h2 ▸ h)]
    · simp [Memory.read_cons, ih]

/-- In canonical memory a read after a write to the same cell gives the value written (R67). -/
theorem Memory.read_write_self {m : Memory} (hm : m.wf) (k : Nat) (b : Byte) : (m.write k b).read k = b := by
  induction m with
  | nil => simp [Memory.write, Memory.read_entry k b (m := []) rfl]
  | cons c m ih =>
    obtain ⟨j, c⟩ := c
    obtain ⟨hp, hc⟩ := hm
    rw [List.pairwise_cons] at hp
    unfold Memory.write
    split_ifs with h1 h2
    · rw [Memory.read_entry k b (Memory.read_of_forall_ne ?_), if_pos rfl]
      intro d hd
      rcases List.mem_cons.mp hd with rfl | hd
      · simp only; omega
      · have := hp.1 d hd
        simp only at this; omega
    · rw [Memory.read_entry k b (Memory.read_of_forall_ne ?_), if_pos rfl]
      intro d hd
      have := hp.1 d hd
      simp only at this; omega
    · rw [Memory.read_cons, if_neg h2]
      exact ih ⟨hp.2, fun d hd => hc d (by simp [hd])⟩

theorem Memory.read_write {m : Memory} (hm : m.wf) (k : Nat) (b : Byte) (a : Nat) :
    (m.write k b).read a = if a = k then b else m.read a := by
  split_ifs with h
  · rw [h, Memory.read_write_self hm]
  · exact Memory.read_write_of_ne m k b h

theorem Memory.mem_entry {k : Nat} {b : Byte} {m : Memory} {d : Host.Cell} (h : d ∈ Memory.entry k b m) :
    (d = (k, b) ∧ b ≠ Memory.unlisted k) ∨ d ∈ m := by
  unfold Memory.entry at h
  split_ifs at h with hb
  · exact .inr h
  · rcases List.mem_cons.mp h with h | h
    · exact .inl ⟨h, hb⟩
    · exact .inr h

/-- Every entry after a write is the written one or was there before. -/
theorem Memory.mem_write {m : Memory} {k : Nat} {b : Byte} {d : Host.Cell} (h : d ∈ m.write k b) :
    (d = (k, b) ∧ b ≠ Memory.unlisted k) ∨ d ∈ m := by
  induction m with
  | nil => exact Memory.mem_entry h
  | cons c m ih =>
    obtain ⟨j, c⟩ := c
    unfold Memory.write at h
    split_ifs at h with h1 h2
    · exact Memory.mem_entry h
    · exact (Memory.mem_entry h).imp_right fun h => by simp [h]
    · rcases List.mem_cons.mp h with rfl | h
      · simp
      · exact (ih h).imp_right fun h => by simp [h]

theorem Memory.pairwise_entry {k : Nat} {b : Byte} {m : Memory} (hm : m.Pairwise fun c d => c.1 < d.1) (h : ∀ d ∈ m, k < d.1) :
    (Memory.entry k b m).Pairwise fun c d => c.1 < d.1 := by
  unfold Memory.entry
  split_ifs
  · exact hm
  · exact List.pairwise_cons.mpr ⟨h, hm⟩

theorem Memory.pairwise_write {m : Memory} (hm : m.Pairwise fun c d => c.1 < d.1) (k : Nat) (b : Byte) :
    (m.write k b).Pairwise fun c d => c.1 < d.1 := by
  induction m with
  | nil => exact Memory.pairwise_entry List.Pairwise.nil (by simp)
  | cons c m ih =>
    obtain ⟨j, c⟩ := c
    have hp := List.pairwise_cons.mp hm
    unfold Memory.write
    split_ifs with h1 h2
    · refine Memory.pairwise_entry hm fun d hd => ?_
      rcases List.mem_cons.mp hd with rfl | hd
      · exact h1
      · exact h1.trans (hp.1 d hd)
    · exact Memory.pairwise_entry hp.2 fun d hd => by rw [h2]; exact hp.1 d hd
    · refine List.pairwise_cons.mpr ⟨fun d hd => ?_, ih hp.2⟩
      rcases Memory.mem_write hd with ⟨rfl, -⟩ | hd
      · simp only; omega
      · exact hp.1 d hd

/-- A write to an address of memory keeps the canonical form. -/
theorem Memory.wf_write {m : Memory} (hm : m.wf) {k : Nat} (hk : k < 4096) (b : Byte) : (m.write k b).wf := by
  refine ⟨Memory.pairwise_write hm.1 k b, fun d hd => ?_⟩
  rcases Memory.mem_write hd with ⟨rfl, hb⟩ | hd
  · exact ⟨hk, hb⟩
  · exact hm.2 d hd

/-- Reset memory is canonical. -/
theorem Memory.wf_nil : Memory.wf [] := ⟨List.Pairwise.nil, by simp⟩

/-- Writing a run of bytes inside memory keeps the canonical form. -/
theorem Memory.wf_writeBytes {m : Memory} (hm : m.wf) (base : Nat) (bs : List Byte) (h : base + bs.length ≤ 4096) :
    (m.writeBytes base bs).wf := by
  induction bs generalizing m base with
  | nil => exact hm
  | cons b bs ih =>
    simp only [List.length_cons] at h
    exact ih (Memory.wf_write hm (k := base) (by omega) b) (base + 1) (by omega)

/-- Writing a run of bytes leaves every cell outside the run alone (R67). -/
theorem Memory.read_writeBytes_of_outside (m : Memory) (base : Nat) (bs : List Byte) {a : Nat}
    (h : a < base ∨ base + bs.length ≤ a) : (m.writeBytes base bs).read a = m.read a := by
  induction bs generalizing m base with
  | nil => rfl
  | cons b bs ih =>
    simp only [List.length_cons] at h
    rw [Memory.writeBytes, ih _ _ (by omega), Memory.read_write_of_ne m base b (by omega)]

/-- In canonical memory the cells of a written run hold the bytes, the first at the lowest address (R65). -/
theorem Memory.read_writeBytes {m : Memory} (hm : m.wf) (base : Nat) (bs : List Byte) (h : base + bs.length ≤ 4096)
    {k : Nat} (hk : k < bs.length) : (m.writeBytes base bs).read (base + k) = bs[k] := by
  induction bs generalizing m base k with
  | nil => simp at hk
  | cons b bs ih =>
    simp only [List.length_cons] at h hk
    rw [Memory.writeBytes]
    cases k with
    | zero => rw [Memory.read_writeBytes_of_outside _ _ _ (by omega)]; simpa using Memory.read_write_self hm base b
    | succ k =>
      have := ih (Memory.wf_write hm (k := base) (by omega) b) (base + 1) (by omega) (k := k) (by omega)
      rw [show base + (k + 1) = base + 1 + k by omega, this]; rfl

@[simp] theorem Memory.length_readBytes (m : Memory) (base n : Nat) : (m.readBytes base n).length = n := by
  simp [Memory.readBytes]

theorem Memory.getElem_readBytes (m : Memory) (base n : Nat) {k : Nat} (hk : k < (m.readBytes base n).length) :
    (m.readBytes base n)[k] = m.read (base + k) := by
  simp [Memory.readBytes]

/-- Reads that agree on a run give the same bytes. -/
theorem Memory.readBytes_congr {m m' : Memory} {base n : Nat} (h : ∀ k < n, m.read (base + k) = m'.read (base + k)) :
    m.readBytes base n = m'.readBytes base n :=
  List.map_congr_left fun k hk => h k (List.mem_range.mp hk)

/-- An access is in range when it is empty or ends at or below 4095 (R61, R176). -/
theorem outOfRange_eq_none {base len : Nat} : outOfRange base len = none ↔ len = 0 ∨ base + len ≤ 4096 := by
  unfold outOfRange; split_ifs with h <;> simp [h]

/-- The recorded address is the lowest one outside memory: `base` itself, or 4096 (R231). -/
theorem outOfRange_eq_some {base len a : Nat} : outOfRange base len = some a ↔ (len ≠ 0 ∧ 4096 < base + len) ∧ a = max base 4096 := by
  unfold outOfRange
  split_ifs with h
  · simp; omega
  · simp only [Option.some.injEq, eq_comm]; exact ⟨fun e => ⟨by omega, e⟩, fun e => e.2⟩

/-- A load succeeds exactly when its bytes fit, and then writes them all (R63). -/
theorem Memory.loadBlock_eq_ok {m m' : Memory} {origin : Nat} {bs : List Byte} :
    m.loadBlock origin bs = .ok m' ↔ outOfRange origin bs.length = none ∧ m' = m.writeBytes origin bs := by
  unfold Memory.loadBlock
  cases outOfRange origin bs.length <;> simp [eq_comm]

theorem Memory.loadBlock_eq_error {m : Memory} {origin a : Nat} {bs : List Byte} :
    m.loadBlock origin bs = .error a ↔ outOfRange origin bs.length = some a := by
  unfold Memory.loadBlock
  cases outOfRange origin bs.length <;> simp

end Sys2Proof.Machine
end

