-- ==== Sys2Proof/Laws/State.lean ====
section
/-!
SUPPORT. What each named update of the state does to each field: one lemma per field per update, so that no proof unfolds a record update.
-/

namespace Sys2Proof.Machine.State

variable (s : State)

@[simp] theorem setReg_v (x : Reg) (b : Byte) : (s.setReg x b).v = s.v.set x b := rfl
@[simp] theorem setReg_i (x : Reg) (b : Byte) : (s.setReg x b).i = s.i := rfl
@[simp] theorem setReg_pc (x : Reg) (b : Byte) : (s.setReg x b).pc = s.pc := rfl
@[simp] theorem setReg_sp (x : Reg) (b : Byte) : (s.setReg x b).sp = s.sp := rfl
@[simp] theorem setReg_stack (x : Reg) (b : Byte) : (s.setReg x b).stack = s.stack := rfl
@[simp] theorem setReg_dt (x : Reg) (b : Byte) : (s.setReg x b).dt = s.dt := rfl
@[simp] theorem setReg_st (x : Reg) (b : Byte) : (s.setReg x b).st = s.st := rfl
@[simp] theorem setReg_mem (x : Reg) (b : Byte) : (s.setReg x b).mem = s.mem := rfl
@[simp] theorem setReg_fb (x : Reg) (b : Byte) : (s.setReg x b).fb = s.fb := rfl
@[simp] theorem setReg_rp (x : Reg) (b : Byte) : (s.setReg x b).rp = s.rp := rfl
@[simp] theorem setReg_mode (x : Reg) (b : Byte) : (s.setReg x b).mode = s.mode := rfl
@[simp] theorem setReg_fault (x : Reg) (b : Byte) : (s.setReg x b).fault = s.fault := rfl
@[simp] theorem setReg_keysDown (x : Reg) (b : Byte) : (s.setReg x b).keysDown = s.keysDown := rfl
@[simp] theorem setReg_draws (x : Reg) (b : Byte) : (s.setReg x b).draws = s.draws := rfl
@[simp] theorem setReg_inputs (x : Reg) (b : Byte) : (s.setReg x b).inputs = s.inputs := rfl

@[simp] theorem setVF_v (f : Bool) : (s.setVF f).v = s.v.set 15 (flagByte f) := rfl
@[simp] theorem setVF_i (f : Bool) : (s.setVF f).i = s.i := rfl
@[simp] theorem setVF_pc (f : Bool) : (s.setVF f).pc = s.pc := rfl
@[simp] theorem setVF_sp (f : Bool) : (s.setVF f).sp = s.sp := rfl
@[simp] theorem setVF_stack (f : Bool) : (s.setVF f).stack = s.stack := rfl
@[simp] theorem setVF_dt (f : Bool) : (s.setVF f).dt = s.dt := rfl
@[simp] theorem setVF_st (f : Bool) : (s.setVF f).st = s.st := rfl
@[simp] theorem setVF_mem (f : Bool) : (s.setVF f).mem = s.mem := rfl
@[simp] theorem setVF_fb (f : Bool) : (s.setVF f).fb = s.fb := rfl
@[simp] theorem setVF_rp (f : Bool) : (s.setVF f).rp = s.rp := rfl
@[simp] theorem setVF_mode (f : Bool) : (s.setVF f).mode = s.mode := rfl
@[simp] theorem setVF_fault (f : Bool) : (s.setVF f).fault = s.fault := rfl
@[simp] theorem setVF_keysDown (f : Bool) : (s.setVF f).keysDown = s.keysDown := rfl
@[simp] theorem setVF_draws (f : Bool) : (s.setVF f).draws = s.draws := rfl
@[simp] theorem setVF_inputs (f : Bool) : (s.setVF f).inputs = s.inputs := rfl

@[simp] theorem setI_v (a : Word) : (s.setI a).v = s.v := rfl
@[simp] theorem setI_i (a : Word) : (s.setI a).i = a := rfl
@[simp] theorem setI_pc (a : Word) : (s.setI a).pc = s.pc := rfl
@[simp] theorem setI_sp (a : Word) : (s.setI a).sp = s.sp := rfl
@[simp] theorem setI_stack (a : Word) : (s.setI a).stack = s.stack := rfl
@[simp] theorem setI_dt (a : Word) : (s.setI a).dt = s.dt := rfl
@[simp] theorem setI_st (a : Word) : (s.setI a).st = s.st := rfl
@[simp] theorem setI_mem (a : Word) : (s.setI a).mem = s.mem := rfl
@[simp] theorem setI_fb (a : Word) : (s.setI a).fb = s.fb := rfl
@[simp] theorem setI_rp (a : Word) : (s.setI a).rp = s.rp := rfl
@[simp] theorem setI_mode (a : Word) : (s.setI a).mode = s.mode := rfl
@[simp] theorem setI_fault (a : Word) : (s.setI a).fault = s.fault := rfl
@[simp] theorem setI_keysDown (a : Word) : (s.setI a).keysDown = s.keysDown := rfl
@[simp] theorem setI_draws (a : Word) : (s.setI a).draws = s.draws := rfl
@[simp] theorem setI_inputs (a : Word) : (s.setI a).inputs = s.inputs := rfl

@[simp] theorem setPc_v (a : Word) : (s.setPc a).v = s.v := rfl
@[simp] theorem setPc_i (a : Word) : (s.setPc a).i = s.i := rfl
@[simp] theorem setPc_pc (a : Word) : (s.setPc a).pc = a := rfl
@[simp] theorem setPc_sp (a : Word) : (s.setPc a).sp = s.sp := rfl
@[simp] theorem setPc_stack (a : Word) : (s.setPc a).stack = s.stack := rfl
@[simp] theorem setPc_dt (a : Word) : (s.setPc a).dt = s.dt := rfl
@[simp] theorem setPc_st (a : Word) : (s.setPc a).st = s.st := rfl
@[simp] theorem setPc_mem (a : Word) : (s.setPc a).mem = s.mem := rfl
@[simp] theorem setPc_fb (a : Word) : (s.setPc a).fb = s.fb := rfl
@[simp] theorem setPc_rp (a : Word) : (s.setPc a).rp = s.rp := rfl
@[simp] theorem setPc_mode (a : Word) : (s.setPc a).mode = s.mode := rfl
@[simp] theorem setPc_fault (a : Word) : (s.setPc a).fault = s.fault := rfl
@[simp] theorem setPc_keysDown (a : Word) : (s.setPc a).keysDown = s.keysDown := rfl
@[simp] theorem setPc_draws (a : Word) : (s.setPc a).draws = s.draws := rfl
@[simp] theorem setPc_inputs (a : Word) : (s.setPc a).inputs = s.inputs := rfl

@[simp] theorem advance_v : (s.advance).v = s.v := rfl
@[simp] theorem advance_i : (s.advance).i = s.i := rfl
@[simp] theorem advance_pc : (s.advance).pc = s.pc + 2 := rfl
@[simp] theorem advance_sp : (s.advance).sp = s.sp := rfl
@[simp] theorem advance_stack : (s.advance).stack = s.stack := rfl
@[simp] theorem advance_dt : (s.advance).dt = s.dt := rfl
@[simp] theorem advance_st : (s.advance).st = s.st := rfl
@[simp] theorem advance_mem : (s.advance).mem = s.mem := rfl
@[simp] theorem advance_fb : (s.advance).fb = s.fb := rfl
@[simp] theorem advance_rp : (s.advance).rp = s.rp := rfl
@[simp] theorem advance_mode : (s.advance).mode = s.mode := rfl
@[simp] theorem advance_fault : (s.advance).fault = s.fault := rfl
@[simp] theorem advance_keysDown : (s.advance).keysDown = s.keysDown := rfl
@[simp] theorem advance_draws : (s.advance).draws = s.draws := rfl
@[simp] theorem advance_inputs : (s.advance).inputs = s.inputs := rfl

@[simp] theorem setDT_v (b : Byte) : (s.setDT b).v = s.v := rfl
@[simp] theorem setDT_i (b : Byte) : (s.setDT b).i = s.i := rfl
@[simp] theorem setDT_pc (b : Byte) : (s.setDT b).pc = s.pc := rfl
@[simp] theorem setDT_sp (b : Byte) : (s.setDT b).sp = s.sp := rfl
@[simp] theorem setDT_stack (b : Byte) : (s.setDT b).stack = s.stack := rfl
@[simp] theorem setDT_dt (b : Byte) : (s.setDT b).dt = b := rfl
@[simp] theorem setDT_st (b : Byte) : (s.setDT b).st = s.st := rfl
@[simp] theorem setDT_mem (b : Byte) : (s.setDT b).mem = s.mem := rfl
@[simp] theorem setDT_fb (b : Byte) : (s.setDT b).fb = s.fb := rfl
@[simp] theorem setDT_rp (b : Byte) : (s.setDT b).rp = s.rp := rfl
@[simp] theorem setDT_mode (b : Byte) : (s.setDT b).mode = s.mode := rfl
@[simp] theorem setDT_fault (b : Byte) : (s.setDT b).fault = s.fault := rfl
@[simp] theorem setDT_keysDown (b : Byte) : (s.setDT b).keysDown = s.keysDown := rfl
@[simp] theorem setDT_draws (b : Byte) : (s.setDT b).draws = s.draws := rfl
@[simp] theorem setDT_inputs (b : Byte) : (s.setDT b).inputs = s.inputs := rfl

@[simp] theorem setST_v (b : Byte) : (s.setST b).v = s.v := rfl
@[simp] theorem setST_i (b : Byte) : (s.setST b).i = s.i := rfl
@[simp] theorem setST_pc (b : Byte) : (s.setST b).pc = s.pc := rfl
@[simp] theorem setST_sp (b : Byte) : (s.setST b).sp = s.sp := rfl
@[simp] theorem setST_stack (b : Byte) : (s.setST b).stack = s.stack := rfl
@[simp] theorem setST_dt (b : Byte) : (s.setST b).dt = s.dt := rfl
@[simp] theorem setST_st (b : Byte) : (s.setST b).st = b := rfl
@[simp] theorem setST_mem (b : Byte) : (s.setST b).mem = s.mem := rfl
@[simp] theorem setST_fb (b : Byte) : (s.setST b).fb = s.fb := rfl
@[simp] theorem setST_rp (b : Byte) : (s.setST b).rp = s.rp := rfl
@[simp] theorem setST_mode (b : Byte) : (s.setST b).mode = s.mode := rfl
@[simp] theorem setST_fault (b : Byte) : (s.setST b).fault = s.fault := rfl
@[simp] theorem setST_keysDown (b : Byte) : (s.setST b).keysDown = s.keysDown := rfl
@[simp] theorem setST_draws (b : Byte) : (s.setST b).draws = s.draws := rfl
@[simp] theorem setST_inputs (b : Byte) : (s.setST b).inputs = s.inputs := rfl

@[simp] theorem setMem_v (m : Memory) : (s.setMem m).v = s.v := rfl
@[simp] theorem setMem_i (m : Memory) : (s.setMem m).i = s.i := rfl
@[simp] theorem setMem_pc (m : Memory) : (s.setMem m).pc = s.pc := rfl
@[simp] theorem setMem_sp (m : Memory) : (s.setMem m).sp = s.sp := rfl
@[simp] theorem setMem_stack (m : Memory) : (s.setMem m).stack = s.stack := rfl
@[simp] theorem setMem_dt (m : Memory) : (s.setMem m).dt = s.dt := rfl
@[simp] theorem setMem_st (m : Memory) : (s.setMem m).st = s.st := rfl
@[simp] theorem setMem_mem (m : Memory) : (s.setMem m).mem = m := rfl
@[simp] theorem setMem_fb (m : Memory) : (s.setMem m).fb = s.fb := rfl
@[simp] theorem setMem_rp (m : Memory) : (s.setMem m).rp = s.rp := rfl
@[simp] theorem setMem_mode (m : Memory) : (s.setMem m).mode = s.mode := rfl
@[simp] theorem setMem_fault (m : Memory) : (s.setMem m).fault = s.fault := rfl
@[simp] theorem setMem_keysDown (m : Memory) : (s.setMem m).keysDown = s.keysDown := rfl
@[simp] theorem setMem_draws (m : Memory) : (s.setMem m).draws = s.draws := rfl
@[simp] theorem setMem_inputs (m : Memory) : (s.setMem m).inputs = s.inputs := rfl

@[simp] theorem setScreen_v (fb : Framebuffer) : (s.setScreen fb).v = s.v := rfl
@[simp] theorem setScreen_i (fb : Framebuffer) : (s.setScreen fb).i = s.i := rfl
@[simp] theorem setScreen_pc (fb : Framebuffer) : (s.setScreen fb).pc = s.pc := rfl
@[simp] theorem setScreen_sp (fb : Framebuffer) : (s.setScreen fb).sp = s.sp := rfl
@[simp] theorem setScreen_stack (fb : Framebuffer) : (s.setScreen fb).stack = s.stack := rfl
@[simp] theorem setScreen_dt (fb : Framebuffer) : (s.setScreen fb).dt = s.dt := rfl
@[simp] theorem setScreen_st (fb : Framebuffer) : (s.setScreen fb).st = s.st := rfl
@[simp] theorem setScreen_mem (fb : Framebuffer) : (s.setScreen fb).mem = s.mem := rfl
@[simp] theorem setScreen_fb (fb : Framebuffer) : (s.setScreen fb).fb = fb := rfl
@[simp] theorem setScreen_rp (fb : Framebuffer) : (s.setScreen fb).rp = true := rfl
@[simp] theorem setScreen_mode (fb : Framebuffer) : (s.setScreen fb).mode = s.mode := rfl
@[simp] theorem setScreen_fault (fb : Framebuffer) : (s.setScreen fb).fault = s.fault := rfl
@[simp] theorem setScreen_keysDown (fb : Framebuffer) : (s.setScreen fb).keysDown = s.keysDown := rfl
@[simp] theorem setScreen_draws (fb : Framebuffer) : (s.setScreen fb).draws = s.draws := rfl
@[simp] theorem setScreen_inputs (fb : Framebuffer) : (s.setScreen fb).inputs = s.inputs := rfl

@[simp] theorem setMode_v (m : Mode) : (s.setMode m).v = s.v := rfl
@[simp] theorem setMode_i (m : Mode) : (s.setMode m).i = s.i := rfl
@[simp] theorem setMode_pc (m : Mode) : (s.setMode m).pc = s.pc := rfl
@[simp] theorem setMode_sp (m : Mode) : (s.setMode m).sp = s.sp := rfl
@[simp] theorem setMode_stack (m : Mode) : (s.setMode m).stack = s.stack := rfl
@[simp] theorem setMode_dt (m : Mode) : (s.setMode m).dt = s.dt := rfl
@[simp] theorem setMode_st (m : Mode) : (s.setMode m).st = s.st := rfl
@[simp] theorem setMode_mem (m : Mode) : (s.setMode m).mem = s.mem := rfl
@[simp] theorem setMode_fb (m : Mode) : (s.setMode m).fb = s.fb := rfl
@[simp] theorem setMode_rp (m : Mode) : (s.setMode m).rp = s.rp := rfl
@[simp] theorem setMode_mode (m : Mode) : (s.setMode m).mode = m := rfl
@[simp] theorem setMode_fault (m : Mode) : (s.setMode m).fault = s.fault := rfl
@[simp] theorem setMode_keysDown (m : Mode) : (s.setMode m).keysDown = s.keysDown := rfl
@[simp] theorem setMode_draws (m : Mode) : (s.setMode m).draws = s.draws := rfl
@[simp] theorem setMode_inputs (m : Mode) : (s.setMode m).inputs = s.inputs := rfl

@[simp] theorem countDraw_v : (s.countDraw).v = s.v := rfl
@[simp] theorem countDraw_i : (s.countDraw).i = s.i := rfl
@[simp] theorem countDraw_pc : (s.countDraw).pc = s.pc := rfl
@[simp] theorem countDraw_sp : (s.countDraw).sp = s.sp := rfl
@[simp] theorem countDraw_stack : (s.countDraw).stack = s.stack := rfl
@[simp] theorem countDraw_dt : (s.countDraw).dt = s.dt := rfl
@[simp] theorem countDraw_st : (s.countDraw).st = s.st := rfl
@[simp] theorem countDraw_mem : (s.countDraw).mem = s.mem := rfl
@[simp] theorem countDraw_fb : (s.countDraw).fb = s.fb := rfl
@[simp] theorem countDraw_rp : (s.countDraw).rp = s.rp := rfl
@[simp] theorem countDraw_mode : (s.countDraw).mode = s.mode := rfl
@[simp] theorem countDraw_fault : (s.countDraw).fault = s.fault := rfl
@[simp] theorem countDraw_keysDown : (s.countDraw).keysDown = s.keysDown := rfl
@[simp] theorem countDraw_draws : (s.countDraw).draws = s.draws + 1 := rfl
@[simp] theorem countDraw_inputs : (s.countDraw).inputs = s.inputs := rfl

@[simp] theorem loadRegs_i (x : Reg) : (s.loadRegs x).i = s.i := rfl
@[simp] theorem loadRegs_pc (x : Reg) : (s.loadRegs x).pc = s.pc := rfl
@[simp] theorem loadRegs_sp (x : Reg) : (s.loadRegs x).sp = s.sp := rfl
@[simp] theorem loadRegs_stack (x : Reg) : (s.loadRegs x).stack = s.stack := rfl
@[simp] theorem loadRegs_dt (x : Reg) : (s.loadRegs x).dt = s.dt := rfl
@[simp] theorem loadRegs_st (x : Reg) : (s.loadRegs x).st = s.st := rfl
@[simp] theorem loadRegs_mem (x : Reg) : (s.loadRegs x).mem = s.mem := rfl
@[simp] theorem loadRegs_fb (x : Reg) : (s.loadRegs x).fb = s.fb := rfl
@[simp] theorem loadRegs_rp (x : Reg) : (s.loadRegs x).rp = s.rp := rfl
@[simp] theorem loadRegs_mode (x : Reg) : (s.loadRegs x).mode = s.mode := rfl
@[simp] theorem loadRegs_fault (x : Reg) : (s.loadRegs x).fault = s.fault := rfl
@[simp] theorem loadRegs_keysDown (x : Reg) : (s.loadRegs x).keysDown = s.keysDown := rfl
@[simp] theorem loadRegs_draws (x : Reg) : (s.loadRegs x).draws = s.draws := rfl
@[simp] theorem loadRegs_inputs (x : Reg) : (s.loadRegs x).inputs = s.inputs := rfl

@[simp] theorem skipIf_v (c : Bool) : (s.skipIf c).v = s.v := by cases c <;> rfl
@[simp] theorem skipIf_i (c : Bool) : (s.skipIf c).i = s.i := by cases c <;> rfl
@[simp] theorem skipIf_pc (c : Bool) : (s.skipIf c).pc = if c then s.pc + 2 else s.pc := by cases c <;> rfl
@[simp] theorem skipIf_sp (c : Bool) : (s.skipIf c).sp = s.sp := by cases c <;> rfl
@[simp] theorem skipIf_stack (c : Bool) : (s.skipIf c).stack = s.stack := by cases c <;> rfl
@[simp] theorem skipIf_dt (c : Bool) : (s.skipIf c).dt = s.dt := by cases c <;> rfl
@[simp] theorem skipIf_st (c : Bool) : (s.skipIf c).st = s.st := by cases c <;> rfl
@[simp] theorem skipIf_mem (c : Bool) : (s.skipIf c).mem = s.mem := by cases c <;> rfl
@[simp] theorem skipIf_fb (c : Bool) : (s.skipIf c).fb = s.fb := by cases c <;> rfl
@[simp] theorem skipIf_rp (c : Bool) : (s.skipIf c).rp = s.rp := by cases c <;> rfl
@[simp] theorem skipIf_mode (c : Bool) : (s.skipIf c).mode = s.mode := by cases c <;> rfl
@[simp] theorem skipIf_fault (c : Bool) : (s.skipIf c).fault = s.fault := by cases c <;> rfl
@[simp] theorem skipIf_keysDown (c : Bool) : (s.skipIf c).keysDown = s.keysDown := by cases c <;> rfl
@[simp] theorem skipIf_draws (c : Bool) : (s.skipIf c).draws = s.draws := by cases c <;> rfl
@[simp] theorem skipIf_inputs (c : Bool) : (s.skipIf c).inputs = s.inputs := by cases c <;> rfl

@[simp] theorem reg_setReg (x : Reg) (b : Byte) (z : Reg) : (s.setReg x b).reg z = if z = x then b else s.reg z := by
  simp only [reg, setReg, Fin.getElem_fin, Vector.getElem_set, Fin.ext_iff, eq_comm]

@[simp] theorem reg_setVF (f : Bool) (z : Reg) : (s.setVF f).reg z = if z = 15 then flagByte f else s.reg z :=
  reg_setReg s 15 (flagByte f) z

@[simp] theorem reg_loadRegs (x z : Reg) : (s.loadRegs x).reg z = if z ≤ x then s.mem.read (s.base + z.val) else s.reg z := by
  simp only [reg, loadRegs, Fin.getElem_fin, Vector.getElem_ofFn]

@[simp] theorem reg_setI (a : Word) (z : Reg) : (s.setI a).reg z = s.reg z := rfl
@[simp] theorem reg_setPc (a : Word) (z : Reg) : (s.setPc a).reg z = s.reg z := rfl
@[simp] theorem reg_advance (z : Reg) : (s.advance).reg z = s.reg z := rfl
@[simp] theorem reg_setDT (b : Byte) (z : Reg) : (s.setDT b).reg z = s.reg z := rfl
@[simp] theorem reg_setST (b : Byte) (z : Reg) : (s.setST b).reg z = s.reg z := rfl
@[simp] theorem reg_setMem (m : Memory) (z : Reg) : (s.setMem m).reg z = s.reg z := rfl
@[simp] theorem reg_setScreen (fb : Framebuffer) (z : Reg) : (s.setScreen fb).reg z = s.reg z := rfl
@[simp] theorem reg_setMode (m : Mode) (z : Reg) : (s.setMode m).reg z = s.reg z := rfl
@[simp] theorem reg_countDraw (z : Reg) : (s.countDraw).reg z = s.reg z := rfl
@[simp] theorem reg_skipIf (c : Bool) (z : Reg) : (s.skipIf c).reg z = s.reg z := by cases c <;> rfl

/-- Two states with the same registers and the same other fields are equal. -/
theorem ext_of_reg {s t : State} (h : ∀ z, t.reg z = s.reg z) (r : t = { s with v := t.v }) : t = s := by
  have hv : t.v = s.v := by
    ext k hk
    have := h ⟨k, hk⟩
    simp only [reg, Fin.getElem_fin] at this
    rw [this]
  rw [r, hv]

end Sys2Proof.Machine.State
end

