-- ==== Sys2Proof/Laws/Ops.lean ====
section
/-!
SUPPORT. What each shared operation can do, said once: the call stack, taking a fault, an access within memory, a skip.
-/

namespace Sys2Proof.Machine

/-- A push with a free slot (R29). -/
theorem State.push_of_lt (s : State) (v : Word) (h : s.sp.val < 16) :
    s.push v = some { s with stack := s.stack.set s.sp.val v, sp := ⟨s.sp.val + 1, by omega⟩ } := dif_pos h

/-- A push fails exactly on a full stack (R29). -/
theorem State.push_eq_none {s : State} {v : Word} : s.push v = none ↔ s.sp.val = 16 := by
  unfold State.push
  split_ifs with h
  · simp; omega
  · simp; omega

/-- Everything a successful push does. -/
theorem State.push_eq_some {s t : State} {v : Word} (h : s.push v = some t) :
    ∃ hsp : s.sp.val < 16, t = { s with stack := s.stack.set s.sp.val v, sp := ⟨s.sp.val + 1, by omega⟩ } := by
  unfold State.push at h
  split_ifs at h with hsp
  exact ⟨hsp, (Option.some.inj h).symm⟩

/-- A pop of a held address (R30). -/
theorem State.pop_of_pos (s : State) (h : 0 < s.sp.val) :
    s.pop = some (s.stack[s.sp.val - 1]'(by omega), { s with sp := ⟨s.sp.val - 1, by omega⟩ }) := dif_pos h

/-- A pop fails exactly on an empty stack (R30). -/
theorem State.pop_eq_none {s : State} : s.pop = none ↔ s.sp.val = 0 := by
  unfold State.pop
  split_ifs with h
  · simp; omega
  · simp; omega

/-- Everything a successful pop does. -/
theorem State.pop_eq_some {s t : State} {a : Word} (h : s.pop = some (a, t)) :
    ∃ _ : 0 < s.sp.val, a = s.stack[s.sp.val - 1]'(by omega) ∧ t = { s with sp := ⟨s.sp.val - 1, by omega⟩ } := by
  unfold State.pop at h
  split_ifs at h with hsp
  have := Option.some.inj h
  exact ⟨hsp, (Prod.ext_iff.mp this).1.symm, (Prod.ext_iff.mp this).2.symm⟩

/-- Taking a fault always gives a next state: the mode and the record are written and nothing else (R236, R237). -/
theorem raise_eq_next {kind : FaultKind} {ia : Word} {op : Option Word} {addr : Option Nat} {s t : State} :
    raise kind ia op addr s = .next t ↔ t = { s with mode := .faulted, fault := some ⟨kind, ia, op, addr⟩ } := by
  simp [raise, eq_comm]

theorem raiseInHandler_eq_next {kind : FaultKind} {op : Word} {addr : Option Nat} {s t : State} :
    raiseInHandler kind op addr s = .next t ↔
      t = { s with mode := .faulted, fault := some ⟨kind, s.pc - 2, some op, addr⟩ } := raise_eq_next

/-- An access within memory completes. -/
theorem withinMemory_of_le {base len : Nat} (op : Word) (s done : State) (h : len = 0 ∨ base + len ≤ 4096) :
    withinMemory base len op s done = .next done := by
  rw [withinMemory, outOfRange_eq_none.mpr h]

/-- An access that leaves memory faults with no other effect. -/
theorem withinMemory_of_lt {base len : Nat} (op : Word) (s done : State) (h : len ≠ 0 ∧ 4096 < base + len) :
    withinMemory base len op s done = raiseInHandler .memoryFault op (some (max base 4096)) s := by
  rw [withinMemory, outOfRange_eq_some.mpr ⟨h, rfl⟩]

/-- Everything an access can do: complete, or fault. -/
theorem withinMemory_eq_next {base len : Nat} {op : Word} {s done t : State} (h : withinMemory base len op s done = .next t) :
    ((len = 0 ∨ base + len ≤ 4096) ∧ t = done) ∨
    ((len ≠ 0 ∧ 4096 < base + len) ∧
      t = { s with mode := .faulted, fault := some ⟨.memoryFault, s.pc - 2, some op, some (max base 4096)⟩ }) := by
  by_cases hr : len = 0 ∨ base + len ≤ 4096
  · rw [withinMemory_of_le op s done hr] at h
    exact .inl ⟨hr, (Host.Outcome.next.inj h).symm⟩
  · have hr' : len ≠ 0 ∧ 4096 < base + len := by omega
    rw [withinMemory_of_lt op s done hr'] at h
    exact .inr ⟨hr', raiseInHandler_eq_next.mp h⟩

/-- A skip is the same state with another program counter (R128). -/
theorem State.skipIf_eq (s : State) (c : Bool) : s.skipIf c = s.setPc (if c then s.pc + 2 else s.pc) := by cases c <;> rfl

/-- The registers that a block store writes out, one by one (R174). -/
theorem State.length_regsUpTo (s : State) (x : Reg) : (s.regsUpTo x).length = x.val + 1 := by
  simp [State.regsUpTo]

theorem State.getElem_regsUpTo (s : State) (x : Reg) (k : Nat) (hk : k < (s.regsUpTo x).length) :
    (s.regsUpTo x)[k] = s.reg ⟨k, by rw [State.length_regsUpTo] at hk; omega⟩ := by
  simp [State.regsUpTo, State.reg]

@[simp] theorem length_decimalDigits (b : Byte) : (decimalDigits b).length = 3 := rfl

@[simp] theorem toNat_flagByte (f : Bool) : (flagByte f).toNat = if f then 1 else 0 := by cases f <;> rfl

end Sys2Proof.Machine
end

