-- ==== Sys2Proof/Laws/Step.lean ====
section
/-!
SUPPORT. What one step does, said once: the turn it takes, the fetch, and the cycle of the instruction agent.
-/

namespace Sys2Proof.Machine

/-- With no input due, a step is a turn of the instruction agent. -/
theorem step_of_no_input {s : State} (h : s.inputs = []) : step s = cycle s := by
  unfold step nextTurn; rw [h]

/-- With an input due, a step handles the oldest. -/
theorem step_of_input {s : State} {e : Input} {rest : List Input} (h : s.inputs = e :: rest) :
    step s = handleInput e { s with inputs := rest } := by
  unfold step nextTurn; rw [h]

theorem cycle_running {s : State} (h : s.mode = .running) : cycle s = runInstruction s := by
  unfold cycle; rw [h]

/-- A cycle is enabled only in the mode Running (R90). -/
theorem cycle_of_ne_running {s : State} (h : s.mode ≠ .running) : cycle s = .next s := by
  unfold cycle; split <;> simp_all

/-- A fetch within memory reads the two bytes at `pc`, the first one high (R64, R90). -/
theorem fetch_of_lt {s : State} (h : s.pc.toNat < 4095) :
    fetch s = .ok (joinBytes (s.mem.read s.pc.toNat) (s.mem.read (s.pc.toNat + 1))) := by
  unfold fetch; rw [outOfRange_eq_none.mpr (by omega)]

/-- A fetch at 4095 or above fails (R90). -/
theorem fetch_of_le {s : State} (h : 4095 ≤ s.pc.toNat) : fetch s = .error (max s.pc.toNat 4096) := by
  unfold fetch; rw [outOfRange_eq_some.mpr ⟨by omega, rfl⟩]

theorem fetch_eq_ok {s : State} {w : Word} (h : fetch s = .ok w) :
    s.pc.toNat < 4095 ∧ w = joinBytes (s.mem.read s.pc.toNat) (s.mem.read (s.pc.toNat + 1)) := by
  rcases Nat.lt_or_ge s.pc.toNat 4095 with hlt | hge
  · rw [fetch_of_lt hlt] at h; exact ⟨hlt, (Except.ok.inj h).symm⟩
  · rw [fetch_of_le hge] at h; cases h

theorem fetch_eq_error {s : State} {a : Nat} (h : fetch s = .error a) : 4095 ≤ s.pc.toNat ∧ a = max s.pc.toNat 4096 := by
  rcases Nat.lt_or_ge s.pc.toNat 4095 with hlt | hge
  · rw [fetch_of_lt hlt] at h; cases h
  · rw [fetch_of_le hge] at h; exact ⟨hge, (Except.error.inj h).symm⟩

/-- After a successful fetch the advance does not wrap (R33). -/
theorem toNat_advance_pc {s : State} (h : s.pc.toNat < 4095) : s.advance.pc.toNat = s.pc.toNat + 2 := by
  rw [State.advance_pc, BitVec.toNat_add]; simp; omega

/-- Everything the instruction step can do (R104): a fetch fault, a decode fault, or the decoded instruction. -/
theorem runInstruction_cases (s : State) :
    (4095 ≤ s.pc.toNat ∧ runInstruction s = raise .memoryFault s.pc none (some (max s.pc.toNat 4096)) s) ∨
    (∃ w e, s.pc.toNat < 4095 ∧ fetch s = .ok w ∧ decodeWord w = .error e ∧
      runInstruction s = raise .unknownOpcode s.pc (some w) none s.advance) ∨
    (∃ w i, s.pc.toNat < 4095 ∧ fetch s = .ok w ∧ decodeWord w = .ok i ∧ runInstruction s = exec i s.advance) := by
  cases hf : fetch s with
  | error a =>
    obtain ⟨h, rfl⟩ := fetch_eq_error hf
    exact .inl ⟨h, by simp only [runInstruction, hf]⟩
  | ok w =>
    have hlt := (fetch_eq_ok hf).1
    cases hd : decodeWord w with
    | error e => exact .inr (.inl ⟨w, e, hlt, rfl, hd, by simp only [runInstruction, hf, hd]⟩)
    | ok i => exact .inr (.inr ⟨w, i, hlt, rfl, hd, by simp only [runInstruction, hf, hd]⟩)

/-- The word placed for the next cycle is the word it fetches, in canonical memory. -/
theorem fetch_placeWord {s : State} (hm : s.mem.wf) (op : Word) : fetch (placeWord op s) = .ok op := by
  have key : ∀ a : Word, a.toNat < 4095 →
      fetch { s with pc := a, mode := .running, inputs := [], mem := s.mem.writeBytes a.toNat (bytesOf op) } = .ok op := by
    intro a ha
    have h0 := Memory.read_writeBytes hm a.toNat (bytesOf op) (by simp [bytesOf]; omega) (k := 0) (by simp [bytesOf])
    have h1 := Memory.read_writeBytes hm a.toNat (bytesOf op) (by simp [bytesOf]; omega) (k := 1) (by simp [bytesOf])
    rw [fetch_of_lt (by simpa using ha)]
    simp only [Nat.add_zero] at h0
    simp only [h0, h1]
    simp [bytesOf]
  unfold placeWord
  dsimp only
  apply key
  split_ifs with h
  · omega
  · decide

/-- The very next step after `withFetchWord` runs exactly the instruction that the bits decode to. -/
theorem step_withFetchWord {s : State} (hm : s.mem.wf) {nbits w : Nat} {i : Instr} (hd : decodeWord (wordOfBits nbits w) = .ok i) :
    step (s.withFetchWord nbits w) = exec i (s.withFetchWord nbits w).advance := by
  rw [step_of_no_input rfl, cycle_running rfl, runInstruction]
  simp only [State.withFetchWord, fetch_placeWord hm, hd]

end Sys2Proof.Machine
end

