-- ==== Sys2Proof/Laws/Exec.lean ====
section
/-!
SUPPORT. What the instructions that can fault do, said once each, the fields the invariant depends on, and the sprite image in terms of memory.
-/

namespace Sys2Proof.Machine

/-- Everything 00EE can do: pop, or take a fault (R120). -/
theorem execRet_eq_next {s t : State} (h : execRet s = .next t) :
    (∃ _ : 0 < s.sp.val, t = { s with sp := ⟨s.sp.val - 1, by omega⟩, pc := s.stack[s.sp.val - 1]'(by omega) }) ∨
    (s.sp.val = 0 ∧ TakesFault .stackUnderflow (s.pc - 2) (some (encode .ret)) none s t) := by
  unfold execRet at h
  split at h
  · rename_i a u hp
    obtain ⟨hs, rfl, rfl⟩ := State.pop_eq_some hp
    obtain rfl := Host.Outcome.next.inj h
    exact .inl ⟨hs, rfl⟩
  · rename_i hp
    exact .inr ⟨State.pop_eq_none.mp hp, raiseInHandler_eq_next.mp h⟩

/-- Everything 2nnn can do: push and jump, or take a fault (R122). -/
theorem execCall_eq_next {nnn : Addr} {s t : State} (h : execCall nnn s = .next t) :
    (∃ _ : s.sp.val < 16, t = { s with sp := ⟨s.sp.val + 1, by omega⟩, stack := s.stack.set s.sp.val s.pc, pc := target nnn }) ∨
    (s.sp.val = 16 ∧ TakesFault .stackOverflow (s.pc - 2) (some (encode (.call nnn))) none s t) := by
  unfold execCall at h
  split at h
  · rename_i u hp
    obtain ⟨hs, rfl⟩ := State.push_eq_some hp
    obtain rfl := Host.Outcome.next.inj h
    exact .inl ⟨hs, rfl⟩
  · rename_i hp
    exact .inr ⟨State.push_eq_none.mp hp, raiseInHandler_eq_next.mp h⟩

/-- Everything Dxyn can do (R192). -/
theorem execDrw_eq_next {x y : Reg} {n : Fin 16} {s t : State} (h : execDrw x y n s = .next t) :
    ((n.val = 0 ∨ s.i.toNat + n.val ≤ 4096) ∧ t = (s.setScreen (drawingOf x y n s).fb).setVF (drawingOf x y n s).hit) ∨
    (n.val ≠ 0 ∧ 4096 < s.i.toNat + n.val ∧
      TakesFault .memoryFault (s.pc - 2) (some (encode (.drw x y n))) (some (max s.i.toNat 4096)) s t) :=
  (withinMemory_eq_next h).imp_right fun ⟨h, e⟩ => ⟨h.1, h.2, e⟩

/-- Everything Fx33 can do (R173). -/
theorem execLdB_eq_next {x : Reg} {s t : State} (h : execLdB x s = .next t) :
    (s.i.toNat + 3 ≤ 4096 ∧ t = s.setMem (s.mem.writeBytes s.i.toNat (decimalDigits (s.reg x)))) ∨
    (4096 < s.i.toNat + 3 ∧ TakesFault .memoryFault (s.pc - 2) (some (encode (.ldB x))) (some (max s.i.toNat 4096)) s t) :=
  (withinMemory_eq_next h).imp (fun ⟨h, e⟩ => ⟨h.resolve_left (by omega), e⟩) fun ⟨h, e⟩ => ⟨h.2, e⟩

/-- Everything Fx55 can do (R174). -/
theorem execStoreRegs_eq_next {x : Reg} {s t : State} (h : execStoreRegs x s = .next t) :
    (s.i.toNat + (x.val + 1) ≤ 4096 ∧ t = s.setMem (s.mem.writeBytes s.i.toNat (s.regsUpTo x))) ∨
    (4096 < s.i.toNat + (x.val + 1) ∧
      TakesFault .memoryFault (s.pc - 2) (some (encode (.storeRegs x))) (some (max s.i.toNat 4096)) s t) :=
  (withinMemory_eq_next h).imp (fun ⟨h, e⟩ => ⟨h.resolve_left (by omega), e⟩) fun ⟨h, e⟩ => ⟨h.2, e⟩

/-- Everything Fx65 can do (R175). -/
theorem execLoadRegs_eq_next {x : Reg} {s t : State} (h : execLoadRegs x s = .next t) :
    (s.i.toNat + (x.val + 1) ≤ 4096 ∧ t = s.loadRegs x) ∨
    (4096 < s.i.toNat + (x.val + 1) ∧
      TakesFault .memoryFault (s.pc - 2) (some (encode (.loadRegs x))) (some (max s.i.toNat 4096)) s t) :=
  (withinMemory_eq_next h).imp (fun ⟨h, e⟩ => ⟨h.resolve_left (by omega), e⟩) fun ⟨h, e⟩ => ⟨h.2, e⟩

/-- The invariant depends on six fields only. -/
theorem Inv.of_eq {s t : State} (h : Inv s) (hmem : t.mem = s.mem) (hpc : t.pc.toNat ≤ 4350) (hsp : t.sp = s.sp) (hstack : t.stack = s.stack)
    (hmode : t.mode = s.mode) (hfault : t.fault = s.fault) : Inv t where
  mem := hmem ▸ h.mem
  pc := hpc
  stack := by rw [hsp, hstack]; exact h.stack
  running := by rw [hmode, hfault]; exact h.running
  waiting := by rw [hmode, hfault]; exact h.waiting
  faulted := by rw [hmode, hfault]; exact h.faulted
  record := by rw [hfault]; exact h.record

/-- Taking a fault with a well-formed record keeps the invariant. -/
theorem Inv.of_takesFault {s t : State} {kind : FaultKind} {ia : Word} {op : Option Word} {addr : Option Nat} (h : Inv s)
    (ht : TakesFault kind ia op addr s t) (hf : FaultRecord.Ok ⟨kind, ia, op, addr⟩) : Inv t := by
  unfold TakesFault at ht
  subst ht
  exact ⟨h.mem, h.pc, h.stack, by simp, by simp, by simp, by simpa using hf⟩

/-- A sprite's image read from memory is the set of points its rows plot. -/
theorem spriteSets_iff {m : Memory} {base n px py : Nat} {u : Fin 64} {v : Fin 32} :
    SpriteSets m base n px py u v ↔ (u, v) ∈ spritePoints px py (m.readBytes base n) := by
  rw [mem_spritePoints]
  constructor
  · rintro ⟨r, hr, c, hc, hb, h⟩
    exact ⟨r, by simpa using hr, c, hc, by rw [Memory.getElem_readBytes]; exact hb, h⟩
  · rintro ⟨r, hr, c, hc, hb, h⟩
    rw [Memory.getElem_readBytes] at hb
    exact ⟨r, by simpa using hr, c, hc, hb, h⟩

/-- One tick takes one from a counter above 0 and leaves 0 (R240). -/
theorem toNat_countDown (b : Byte) : (countDown b).toNat = b.toNat - 1 := by
  unfold countDown
  split_ifs with h
  · simp [h]
  · have h0 : b.toNat ≠ 0 := fun e => h (BitVec.eq_of_toNat_eq (by simpa using e))
    have := b.isLt
    rw [BitVec.toNat_sub]
    simp
    omega

/-- A tick where ticks are enabled (R240). -/
theorem tick_of_ne_stopped {s : State} (h : s.mode ≠ .stopped) : tick s = { s with dt := countDown s.dt, st := countDown s.st } := by
  unfold tick
  split <;> simp_all

/-- What any address holds after a run of bytes is written: the byte written there, or the old one. -/
theorem byteAfterStore_writeBytes {s : State} (hm : s.mem.wf) (base : Nat) (bs : List Byte) (h : base + bs.length ≤ 4096)
    {f : Nat → Byte} (hf : ∀ k (hk : k < bs.length), bs[k] = f k) (a : Nat) :
    ByteAfterStore s base bs.length f a ((s.mem.writeBytes base bs).read a) where
  left := by
    rintro k hk rfl
    rw [← hf k hk, Memory.read_writeBytes hm base bs h hk]
  right hn := Memory.read_writeBytes_of_outside _ _ _ (by
    by_contra hc
    exact hn (a - base) (by omega) (by omega))

end Sys2Proof.Machine
end

