-- ==== Sys2Proof/Laws/PerInstr.lean ====
section
/-!
SUPPORT. The family `EncodeLegal`: the word of every instruction is legal, matched by a row of the opcode map (R95).
-/

namespace Sys2Proof.Laws.EncodeLegal

/-- The instruction's word matches a row of R95. -/
def Statement (i : Instr) : Prop := legalWord (encode i) = true

theorem legal_of_covers {w : Word} (p : Pattern) (hp : p ∈ opcodeMap) (h : w &&& p.mask = p.value) : legalWord w = true :=
  List.any_eq_true.mpr ⟨p, hp, by simp [Pattern.covers, h]⟩

theorem nnn_and (t : BitVec 4) (nnn : Addr) : encodeNNN t nnn &&& 0xF000 = t ++ 0#12 := by
  rw [encodeNNN, show (0xF000 : Word) = 0xF#4 ++ 0#12 from rfl, BitVec.and_append]
  congr 1
  · exact BitVec.and_allOnes
  · exact BitVec.and_zero

theorem xkk_and_high (t : BitVec 4) (x : Reg) (kk : Byte) : encodeXKK t x kk &&& 0xF000 = t ++ 0#4 ++ 0#8 := by
  rw [encodeXKK, show (0xF000 : Word) = 0xF#4 ++ 0#4 ++ 0#8 from rfl, BitVec.and_append, BitVec.and_append]
  congr 1
  · congr 1
    · exact BitVec.and_allOnes
    · exact BitVec.and_zero
  · exact BitVec.and_zero

theorem xkk_and_low (t : BitVec 4) (x : Reg) (kk : Byte) : encodeXKK t x kk &&& 0xF0FF = t ++ 0#4 ++ kk := by
  rw [encodeXKK, show (0xF0FF : Word) = 0xF#4 ++ 0#4 ++ 0xFF#8 from rfl, BitVec.and_append, BitVec.and_append]
  congr 1
  · congr 1
    · exact BitVec.and_allOnes
    · exact BitVec.and_zero
  · exact BitVec.and_allOnes

theorem xyn_and_high (t : BitVec 4) (x y : Reg) (s : BitVec 4) : encodeXYN t x y s &&& 0xF000 = t ++ 0#4 ++ 0#4 ++ 0#4 := by
  rw [encodeXYN, show (0xF000 : Word) = 0xF#4 ++ 0#4 ++ 0#4 ++ 0#4 from rfl, BitVec.and_append, BitVec.and_append, BitVec.and_append]
  congr 1
  · congr 1
    · congr 1
      · exact BitVec.and_allOnes
      · exact BitVec.and_zero
    · exact BitVec.and_zero
  · exact BitVec.and_zero

theorem xyn_and_low (t : BitVec 4) (x y : Reg) (s : BitVec 4) : encodeXYN t x y s &&& 0xF00F = t ++ 0#4 ++ 0#4 ++ s := by
  rw [encodeXYN, show (0xF00F : Word) = 0xF#4 ++ 0#4 ++ 0#4 ++ 0xF#4 from rfl, BitVec.and_append, BitVec.and_append, BitVec.and_append]
  congr 1
  · congr 1
    · congr 1
      · exact BitVec.and_allOnes
      · exact BitVec.and_zero
    · exact BitVec.and_zero
  · exact BitVec.and_allOnes

theorem cls : Statement .cls := (by decide : legalWord (encode .cls) = true)
theorem ret : Statement .ret := (by decide : legalWord (encode .ret) = true)
theorem jp (nnn : Addr) : Statement (.jp nnn) := legal_of_covers ⟨0xF000, 0x1000⟩ (by decide) (nnn_and _ _)
theorem call (nnn : Addr) : Statement (.call nnn) := legal_of_covers ⟨0xF000, 0x2000⟩ (by decide) (nnn_and _ _)
theorem seByte (x : Reg) (kk : Byte) : Statement (.seByte x kk) := legal_of_covers ⟨0xF000, 0x3000⟩ (by decide) (xkk_and_high _ _ _)
theorem sneByte (x : Reg) (kk : Byte) : Statement (.sneByte x kk) := legal_of_covers ⟨0xF000, 0x4000⟩ (by decide) (xkk_and_high _ _ _)
theorem seReg (x y : Reg) : Statement (.seReg x y) := legal_of_covers ⟨0xF00F, 0x5000⟩ (by decide) (xyn_and_low _ _ _ _)
theorem ldByte (x : Reg) (kk : Byte) : Statement (.ldByte x kk) := legal_of_covers ⟨0xF000, 0x6000⟩ (by decide) (xkk_and_high _ _ _)
theorem addByte (x : Reg) (kk : Byte) : Statement (.addByte x kk) := legal_of_covers ⟨0xF000, 0x7000⟩ (by decide) (xkk_and_high _ _ _)
theorem ldReg (x y : Reg) : Statement (.ldReg x y) := legal_of_covers ⟨0xF00F, 0x8000⟩ (by decide) (xyn_and_low _ _ _ _)
theorem orReg (x y : Reg) : Statement (.orReg x y) := legal_of_covers ⟨0xF00F, 0x8001⟩ (by decide) (xyn_and_low _ _ _ _)
theorem andReg (x y : Reg) : Statement (.andReg x y) := legal_of_covers ⟨0xF00F, 0x8002⟩ (by decide) (xyn_and_low _ _ _ _)
theorem xorReg (x y : Reg) : Statement (.xorReg x y) := legal_of_covers ⟨0xF00F, 0x8003⟩ (by decide) (xyn_and_low _ _ _ _)
theorem addReg (x y : Reg) : Statement (.addReg x y) := legal_of_covers ⟨0xF00F, 0x8004⟩ (by decide) (xyn_and_low _ _ _ _)
theorem subReg (x y : Reg) : Statement (.subReg x y) := legal_of_covers ⟨0xF00F, 0x8005⟩ (by decide) (xyn_and_low _ _ _ _)
theorem shr (x y : Reg) : Statement (.shr x y) := legal_of_covers ⟨0xF00F, 0x8006⟩ (by decide) (xyn_and_low _ _ _ _)
theorem subn (x y : Reg) : Statement (.subn x y) := legal_of_covers ⟨0xF00F, 0x8007⟩ (by decide) (xyn_and_low _ _ _ _)
theorem shl (x y : Reg) : Statement (.shl x y) := legal_of_covers ⟨0xF00F, 0x800E⟩ (by decide) (xyn_and_low _ _ _ _)
theorem sneReg (x y : Reg) : Statement (.sneReg x y) := legal_of_covers ⟨0xF00F, 0x9000⟩ (by decide) (xyn_and_low _ _ _ _)
theorem ldI (nnn : Addr) : Statement (.ldI nnn) := legal_of_covers ⟨0xF000, 0xA000⟩ (by decide) (nnn_and _ _)
theorem jpV0 (nnn : Addr) : Statement (.jpV0 nnn) := legal_of_covers ⟨0xF000, 0xB000⟩ (by decide) (nnn_and _ _)
theorem rnd (x : Reg) (kk : Byte) : Statement (.rnd x kk) := legal_of_covers ⟨0xF000, 0xC000⟩ (by decide) (xkk_and_high _ _ _)
theorem drw (x y : Reg) (n : Fin 16) : Statement (.drw x y n) := legal_of_covers ⟨0xF000, 0xD000⟩ (by decide) (xyn_and_high _ _ _ _)
theorem skp (x : Reg) : Statement (.skp x) := legal_of_covers ⟨0xF0FF, 0xE09E⟩ (by decide) (xkk_and_low _ _ _)
theorem sknp (x : Reg) : Statement (.sknp x) := legal_of_covers ⟨0xF0FF, 0xE0A1⟩ (by decide) (xkk_and_low _ _ _)
theorem ldVxDT (x : Reg) : Statement (.ldVxDT x) := legal_of_covers ⟨0xF0FF, 0xF007⟩ (by decide) (xkk_and_low _ _ _)
theorem ldVxK (x : Reg) : Statement (.ldVxK x) := legal_of_covers ⟨0xF0FF, 0xF00A⟩ (by decide) (xkk_and_low _ _ _)
theorem ldDTVx (x : Reg) : Statement (.ldDTVx x) := legal_of_covers ⟨0xF0FF, 0xF015⟩ (by decide) (xkk_and_low _ _ _)
theorem ldSTVx (x : Reg) : Statement (.ldSTVx x) := legal_of_covers ⟨0xF0FF, 0xF018⟩ (by decide) (xkk_and_low _ _ _)
theorem addI (x : Reg) : Statement (.addI x) := legal_of_covers ⟨0xF0FF, 0xF01E⟩ (by decide) (xkk_and_low _ _ _)
theorem ldF (x : Reg) : Statement (.ldF x) := legal_of_covers ⟨0xF0FF, 0xF029⟩ (by decide) (xkk_and_low _ _ _)
theorem ldB (x : Reg) : Statement (.ldB x) := legal_of_covers ⟨0xF0FF, 0xF033⟩ (by decide) (xkk_and_low _ _ _)
theorem storeRegs (x : Reg) : Statement (.storeRegs x) := legal_of_covers ⟨0xF0FF, 0xF055⟩ (by decide) (xkk_and_low _ _ _)
theorem loadRegs (x : Reg) : Statement (.loadRegs x) := legal_of_covers ⟨0xF0FF, 0xF065⟩ (by decide) (xkk_and_low _ _ _)

end Sys2Proof.Laws.EncodeLegal
end

