-- ==== Sys2Proof/Tests/Slice0.lean ====
section
/-!
SUPPORT. The model's own tests: expected results are the vectors of spec/95_test_vectors.md or the examples of the rule cited, and the
witnesses that the hypotheses of the statements can be met.
-/

namespace Sys2Proof.Tests

open Sys2Proof.Machine

/-! The checks on raw data refuse ill-formed terms: one word of each class (a) to (f) of R99, and an image one byte too long (R273). -/

theorem test_illegal_family0 : legalWord 0x00F0 = false := by decide
theorem test_illegal_family5 : legalWord 0x5121 = false := by decide
theorem test_illegal_family8 : legalWord 0x8018 = false := by decide
theorem test_illegal_family9 : legalWord 0x912F = false := by decide
theorem test_illegal_familyE : legalWord 0xE09F = false := by decide
theorem test_illegal_familyF : legalWord 0xF075 = false := by decide
theorem test_image_too_long : imageFits (List.replicate 3585 0) = false := by
  rw [imageFits, List.length_replicate]; decide
theorem test_image_of_full_length_fits : imageFits (List.replicate 3584 0) = true := by
  rw [imageFits, List.length_replicate]; decide

/-! Every constructor from a word written out bit by bit from its pattern in R95. -/

theorem test_decode_cls : decodeWord 0b0000_0000_1110_0000 = .ok .cls := by decide
theorem test_decode_ret : decodeWord 0b0000_0000_1110_1110 = .ok .ret := by decide
theorem test_decode_jp : decodeWord 0b0001_1010_1011_1100 = .ok (.jp 0xABC) := by decide
theorem test_decode_call : decodeWord 0b0010_0010_0000_1010 = .ok (.call 0x20A) := by decide
theorem test_decode_seByte : decodeWord 0b0011_0001_0010_0011 = .ok (.seByte 1 0x23) := by decide
theorem test_decode_sneByte : decodeWord 0b0100_1010_0001_0000 = .ok (.sneByte 0xA 0x10) := by decide
theorem test_decode_seReg : decodeWord 0b0101_0001_0010_0000 = .ok (.seReg 1 2) := by decide
theorem test_decode_ldByte : decodeWord 0b0110_0000_0000_0101 = .ok (.ldByte 0 5) := by decide
theorem test_decode_addByte : decodeWord 0b0111_0001_1111_1111 = .ok (.addByte 1 0xFF) := by decide
theorem test_decode_ldReg : decodeWord 0b1000_0001_0010_0000 = .ok (.ldReg 1 2) := by decide
theorem test_decode_orReg : decodeWord 0b1000_0001_0010_0001 = .ok (.orReg 1 2) := by decide
theorem test_decode_andReg : decodeWord 0b1000_0001_0010_0010 = .ok (.andReg 1 2) := by decide
theorem test_decode_xorReg : decodeWord 0b1000_0001_0010_0011 = .ok (.xorReg 1 2) := by decide
theorem test_decode_addReg : decodeWord 0b1000_0000_0001_0100 = .ok (.addReg 0 1) := by decide
theorem test_decode_subReg : decodeWord 0b1000_0001_0010_0101 = .ok (.subReg 1 2) := by decide
theorem test_decode_shr : decodeWord 0b1000_0001_0010_0110 = .ok (.shr 1 2) := by decide
theorem test_decode_subn : decodeWord 0b1000_0001_0010_0111 = .ok (.subn 1 2) := by decide
theorem test_decode_shl : decodeWord 0b1000_1010_1011_1110 = .ok (.shl 0xA 0xB) := by decide
theorem test_decode_sneReg : decodeWord 0b1001_0001_0010_0000 = .ok (.sneReg 1 2) := by decide
theorem test_decode_ldI : decodeWord 0b1010_0011_0000_0000 = .ok (.ldI 0x300) := by decide
theorem test_decode_jpV0 : decodeWord 0b1011_1111_1111_1111 = .ok (.jpV0 0xFFF) := by decide
theorem test_decode_rnd : decodeWord 0b1100_0011_0000_1111 = .ok (.rnd 3 0x0F) := by decide
theorem test_decode_drw : decodeWord 0b1101_0000_0001_0010 = .ok (.drw 0 1 2) := by decide
theorem test_decode_skp : decodeWord 0b1110_0101_1001_1110 = .ok (.skp 5) := by decide
theorem test_decode_sknp : decodeWord 0b1110_0101_1010_0001 = .ok (.sknp 5) := by decide
theorem test_decode_ldVxDT : decodeWord 0b1111_0101_0000_0111 = .ok (.ldVxDT 5) := by decide
theorem test_decode_ldVxK : decodeWord 0b1111_0011_0000_1010 = .ok (.ldVxK 3) := by decide
theorem test_decode_ldDTVx : decodeWord 0b1111_0101_0001_0101 = .ok (.ldDTVx 5) := by decide
theorem test_decode_ldSTVx : decodeWord 0b1111_0001_0001_1000 = .ok (.ldSTVx 1) := by decide
theorem test_decode_addI : decodeWord 0b1111_0010_0001_1110 = .ok (.addI 2) := by decide
theorem test_decode_ldF : decodeWord 0b1111_0101_0010_1001 = .ok (.ldF 5) := by decide
theorem test_decode_ldB : decodeWord 0b1111_0101_0011_0011 = .ok (.ldB 5) := by decide
theorem test_decode_storeRegs : decodeWord 0b1111_0010_0101_0101 = .ok (.storeRegs 2) := by decide
theorem test_decode_loadRegs : decodeWord 0b1111_0011_0110_0101 = .ok (.loadRegs 3) := by decide
theorem test_decode_truncated : decode [0x60] = .error .truncated := by decide
theorem test_decodeTableWord : decodeTableWord 16 0x8014 = some (.addReg 0 1) := by decide

/-! One step of one instruction at 0x200, on the reset state with a few registers set. -/

/-- A part of the state after a step, where there is one. -/
def after {α : Type} (r : Result) (f : State → α) : Option α :=
  match r with
  | .next s => some (f s)
  | _ => none

/-- One step of the word `w` placed at `PC`. -/
def run (s : State) (w : Nat) : Result := step (s.withFetchWord 16 w)

/-- The reset state with `V[0]` and `V[1]` set. -/
def with01 (a b : Byte) : State := (State.reset.setReg 0 a).setReg 1 b

theorem test_cls : after (run { State.reset with fb := State.reset.fb.setPixel 3 4 true } 0x00E0)
    (fun s => (s.fb.pixel 3 4, s.rp, s.pc)) = some (false, true, 0x202) := by decide
theorem test_ret : after (run { State.reset with pc := 0x20C, sp := 1, stack := State.reset.stack.set 0 0x206 } 0x00EE)
    (fun s => (s.sp, s.pc, s.stack[0])) = some (0, 0x206, 0x206) := by decide
theorem test_ret_empty : after (run State.reset 0x00EE) (fun s => (s.pc, s.sp, s.mode, s.fault)) =
    some (0x202, 0, .faulted, some ⟨.stackUnderflow, 0x200, some 0x00EE, none⟩) := by decide
theorem test_jp : after (run State.reset 0x1ABC) (fun s => s.pc) = some 0xABC := by decide
theorem test_jp_to_itself : after (run State.reset 0x1200) (fun s => s.pc) = some 0x200 := by decide
theorem test_call : after (run { State.reset with pc := 0x204, sp := 15 } 0x220A) (fun s => (s.stack[15], s.sp, s.pc)) =
    some (0x206, 16, 0x20A) := by decide
theorem test_call_full : after (run { State.reset with pc := 0x204, sp := 16 } 0x220A) (fun s => (s.sp, s.pc, s.fault)) =
    some (16, 0x206, some ⟨.stackOverflow, 0x204, some 0x220A, none⟩) := by decide
theorem test_seByte_taken : after (run { State.reset with pc := 0x208 } 0x3100) (fun s => s.pc) = some 0x20C := by decide
theorem test_seByte_not_taken : after (run { with01 0 4 with pc := 0x208 } 0x3100) (fun s => s.pc) = some 0x20A := by decide
theorem test_sneByte_taken : after (run { with01 0 4 with pc := 0x300 } 0x4110) (fun s => s.pc) = some 0x304 := by decide
theorem test_sneByte_not_taken : after (run { with01 0 0x10 with pc := 0x300 } 0x4110) (fun s => s.pc) = some 0x302 := by decide
theorem test_seReg : after (run (with01 7 8) 0x5010) (fun s => s.pc) = some 0x202 := by decide
theorem test_seReg_same : after (run State.reset 0x5330) (fun s => s.pc) = some 0x204 := by decide
theorem test_sneReg : after (run (with01 7 8) 0x9010) (fun s => s.pc) = some 0x204 := by decide
theorem test_sneReg_same : after (run State.reset 0x9330) (fun s => s.pc) = some 0x202 := by decide
theorem test_jpV0 : after (run (with01 0xFF 0) 0xBFFF) (fun s => s.pc) = some 0x10FE := by decide
theorem test_jpV0_not_wrapped : after (run (with01 2 0) 0xBFFE) (fun s => s.pc) = some 0x1000 := by decide
theorem test_ldByte : after (run State.reset 0x6AFF) (fun s => (s.reg 0xA, s.reg 0xF)) = some (0xFF, 0) := by decide
theorem test_addByte_wraps : after (run (with01 0xFF 0) 0x7002) (fun s => (s.reg 0, s.reg 15)) = some (0x01, 0) := by decide
theorem test_ldReg : after (run (with01 0 0x7B) 0x8010) (fun s => (s.reg 0, s.reg 1)) = some (0x7B, 0x7B) := by decide
theorem test_orReg : after (run ((with01 0xF0 0x3C).setReg 15 1) 0x8011) (fun s => (s.reg 0, s.reg 15)) = some (0xFC, 1) := by decide
theorem test_andReg : after (run ((with01 0xF0 0x3C).setReg 15 1) 0x8012) (fun s => (s.reg 0, s.reg 15)) = some (0x30, 1) := by decide
theorem test_xorReg : after (run ((with01 0xF0 0x3C).setReg 15 1) 0x8013) (fun s => (s.reg 0, s.reg 15)) = some (0xCC, 1) := by decide
theorem test_addReg_carry : after (run (with01 0xFF 0xFF) 0x8014) (fun s => (s.reg 0, s.reg 15)) = some (0xFE, 1) := by decide
theorem test_addReg_into_VF : after (run ((with01 0 4).setReg 15 3) 0x8F14) (fun s => s.reg 15) = some 0 := by decide
theorem test_subReg_borrow : after (run (with01 0 1) 0x8015) (fun s => (s.reg 0, s.reg 15)) = some (0xFF, 0) := by decide
theorem test_subReg_equal : after (run (with01 5 5) 0x8015) (fun s => (s.reg 0, s.reg 15)) = some (0, 1) := by decide
theorem test_subn : after (run (with01 3 10) 0x8017) (fun s => (s.reg 0, s.reg 1, s.reg 15)) = some (7, 10, 1) := by decide
theorem test_subn_borrow : after (run (with01 1 0) 0x8017) (fun s => (s.reg 0, s.reg 15)) = some (0xFF, 0) := by decide
theorem test_shr : after (run (with01 0xAA 0x05) 0x8016) (fun s => (s.reg 0, s.reg 15)) = some (0x02, 1) := by decide
theorem test_shr_VF : after (run (State.reset.setReg 15 3) 0x8FF6) (fun s => s.reg 15) = some 1 := by decide
theorem test_shl : after (run (with01 0 0x81) 0x801E) (fun s => (s.reg 0, s.reg 15)) = some (0x02, 1) := by decide
theorem test_shl_VF : after (run (State.reset.setReg 15 0x40) 0x8FFE) (fun s => s.reg 15) = some 0 := by decide
/-- The mask 0 gives 0 whatever the draw (R151). -/
theorem test_rnd_mask_zero : after (exec (.rnd 3 0) (State.reset.setReg 3 7)) (fun s => (s.reg 3, s.draws, s.pc)) = some (0, 1, 512) := by
  have h : Config.randomByte 0 &&& 0 = 0 := BitVec.and_zero
  show some ((((State.reset.setReg 3 7).setReg 3 (Config.randomByte 0 &&& 0)).reg 3), 1, 512) = some (0, 1, 512)
  rw [h]; decide
theorem test_ldI : after (run State.reset 0xAFFF) (fun s => s.i) = some 0x0FFF := by decide
theorem test_addI : after (run { with01 1 0 with i := 0x0FFF } 0xF01E) (fun s => (s.i, s.reg 15, s.fault)) = some (0x1000, 0, none) := by decide
theorem test_addI_wraps : after (run { with01 0xFF 0 with i := 0xFF80 } 0xF01E) (fun s => s.i) = some 0x007F := by decide
theorem test_ldF : after (run (with01 0xFF 0) 0xF029) (fun s => s.i) = some 0x4FB := by decide
theorem test_ldB : after (run { with01 234 0 with i := 0x300 } 0xF033)
    (fun s => (s.mem.readBytes 0x300 3, s.mem, s.i)) = some ([2, 3, 4], [(512, 0xF0), (513, 0x33), (0x300, 2), (0x301, 3), (0x302, 4)], 0x300) := by decide
theorem test_ldB_beyond : after (run { with01 7 0 with i := 4094 } 0xF033) (fun s => (s.mem.readBytes 4094 2, s.pc, s.fault)) =
    some ([0, 0], 0x202, some ⟨.memoryFault, 0x200, some 0xF033, some 4096⟩) := by decide
theorem test_storeRegs : after (run { (with01 0x11 0x22).setReg 2 0x33 with i := 0x300 } 0xF255)
    (fun s => (s.mem.readBytes 0x300 4, s.i)) = some ([0x11, 0x22, 0x33, 0], 0x300) := by decide
theorem test_storeRegs_beyond : after (run { with01 1 1 with i := 4095 } 0xF155) (fun s => (s.mem.read 4095, s.fault)) =
    some (0, some ⟨.memoryFault, 0x200, some 0xF155, some 4096⟩) := by decide
/-- The last vector of spec/95_test_vectors.md 2.4: a store over the high byte of the next word. -/
theorem test_store_over_code : after (run { with01 0x12 0 with i := 0x202, mem := [(0x203, 2)] } 0xF055) (fun s => s.mem.read 0x202) =
    some 0x12 := by decide
theorem test_store_over_code_fetched : after (run { with01 0x12 0 with i := 0x202, mem := [(0x203, 2)] } 0xF055)
    (fun s => (fetch s).toOption) = some (some 0x1202) := by decide
theorem test_loadRegs : after (run { State.reset.setReg 3 9 with i := 0x300, mem := [(0x300, 2), (0x301, 3), (0x302, 4)] } 0xF265)
    (fun s => (s.reg 0, s.reg 1, s.reg 2, s.reg 3, s.i)) = some (2, 3, 4, 9, 0x300) := by decide
theorem test_loadRegs_beyond : after (run { with01 5 6 with i := 4095 } 0xF165) (fun s => (s.reg 0, s.reg 1, s.mode)) =
    some (5, 6, .faulted) := by decide
/-- The sprite of R192's example with a second row, at the last pixel of both axes (R191). -/
def cornerDraw : State := { with01 62 31 with i := 0x20C, mem := [(0x20C, 0xC0), (0x20D, 0x81)] }
theorem test_drw_wraps : after (run cornerDraw 0xD012) (fun s => [s.fb.pixel 62 31, s.fb.pixel 63 31, s.fb.pixel 62 0, s.fb.pixel 5 0]) =
    some [true, true, true, true] := by decide
theorem test_drw_clear : after (run cornerDraw 0xD012) (fun s => (s.fb.pixel 4 0, s.reg 15, s.rp)) = some (false, 0, true) := by decide
/-- A sprite drawn over its own set pixel, with x = 15: VF is a coordinate first and the collision flag after. -/
def drawAtVF : State :=
  { ((with01 0 2).setReg 15 3) with i := 0x300, mem := [(0x300, 0x80)], fb := State.reset.fb.setPixel 3 2 true }
theorem test_drw_at_VF : after (run drawAtVF 0xDF11) (fun s => (s.fb.pixel 3 2, s.reg 15)) = some (false, 1) := by decide
theorem test_skp : after (run { with01 5 0 with keysDown := 0x20 } 0xE09E) (fun s => s.pc) = some 0x204 := by decide
theorem test_skp_no_such_key : after (run { with01 0x15 0 with keysDown := 0xFFFF } 0xE09E) (fun s => s.pc) = some 0x202 := by decide
theorem test_sknp : after (run { with01 5 0 with keysDown := 0x20 } 0xE0A1) (fun s => s.pc) = some 0x202 := by decide
theorem test_sknp_no_such_key : after (run (with01 0xFF 0) 0xE0A1) (fun s => s.pc) = some 0x204 := by decide
theorem test_ldVxDT : after (run { State.reset with dt := 0x2A } 0xF007) (fun s => s.reg 0) = some 0x2A := by decide
theorem test_ldVxK : after (run State.reset 0xF30A) (fun s => (s.mode, s.pc, s.reg 3)) = some (.waitingForKey 3, 0x202, 0) := by decide
theorem test_ldDTVx : after (run (with01 60 0) 0xF015) (fun s => s.dt) = some 60 := by decide
theorem test_ldSTVx : after (run (with01 0 3) 0xF118) (fun s => (s.st, toneActive s)) = some (3, true) := by decide

/-! The other agents. -/

theorem test_keys : after (step { State.reset with mode := .faulted, inputs := [.keys 0x8001] }) (fun s => (s.keysDown, s.keyDown 15, s.keyDown 1)) =
    some (0x8001, true, false) := by decide
theorem test_key_press : after (step { State.reset with mode := .waitingForKey 3, inputs := [.keyPress 0xB] })
    (fun s => (s.reg 3, s.mode)) = some (0x0B, .running) := by decide
theorem test_tick : after (step { State.reset with dt := 255, st := 1, inputs := [.tick] }) (fun s => (s.dt, s.st, toneActive s)) =
    some (254, 0, false) := by decide
theorem test_fetch_fault : after (step { State.reset with pc := 4095 }) (fun s => (s.pc, s.mode, s.fault)) =
    some (4095, .faulted, some ⟨.memoryFault, 4095, none, some 4096⟩) := by decide
theorem test_unknown_opcode : after (step State.reset) (fun s => (s.pc, s.fault)) =
    some (0x202, some ⟨.unknownOpcode, 0x200, some 0x0000, none⟩) := by decide
theorem test_stop_keeps_the_record : after (step { State.reset with mode := .faulted, fault := some ⟨.unknownOpcode, 0x200, some 0, none⟩, inputs := [.stop] })
    faultOutput = some (false, some ⟨.unknownOpcode, 0x200, some 0, none⟩) := by decide
theorem test_reset_loads : after (step { State.reset with mode := .stopped, inputs := [.reset [0x60, 0x05]] })
    (fun s => (s.mem.read 512, s.mem.read 513, s.mode, s.pc)) = some (0x60, 0x05, .running, 512) := by decide

/-! Witnesses: the hypotheses of each statement that has some can be met together, each clause at a boundary value. -/

/-- The reset state with I at the last place from which `n` bytes stay in memory. -/
def atTop (n : Nat) : State := { State.reset with i := BitVec.ofNat 16 (4096 - n) }

theorem witness_EncodeOfDecodeIsIdentity : decode [0x80, 0x14, 0xFF] = .ok (.addReg 0 1, [0xFF]) := by decide
theorem witness_DecoderAcceptsExactlyTheOpcodeMap : legalWord 0x00EE = true ∧ legalWord 0x00EF = false := by decide
theorem witness_IllegalWordsAreTheSixClasses : legalWord 0xF01F = false ∧ legalWord 0xF01E = true ∧
    fieldsOf 0xF01F = ⟨0xF, 0, 1, 0xF, 0x1F, 0x01F⟩ := by decide
theorem witness_StepRunsDecodedInstruction : ∃ s : State, s.mode = .running ∧ s.pc.toNat + 1 ≤ 4095 ∧
    decode [s.mem.read s.pc.toNat, s.mem.read (s.pc.toNat + 1)] = .ok (.ldByte 0 5, []) ∧ s.inputs = [] :=
  ⟨{ State.reset with pc := 4094, mem := [(4094, 0x60), (4095, 0x05)] }, by decide, by decide, by decide, rfl⟩
theorem witness_StepRunsDecodedInstruction_scheduled : ∃ s : State, s.mode = .running ∧ s.pc.toNat + 1 ≤ 4095 ∧
    decode [s.mem.read s.pc.toNat, s.mem.read (s.pc.toNat + 1)] = .ok (.ldByte 0 5, []) ∧ s.inputs = .cycle :: [.tick] :=
  ⟨{ State.reset with mem := [(512, 0x60), (513, 0x05)], inputs := [.cycle, .tick] }, by decide, by decide, by decide, rfl⟩
theorem witness_FetchBeyondMemoryFaults : ∃ s u : State, (s.inputs = [] ∧ s.mode = .running ∧ s.pc.toNat = 4095) ∧
    (u.inputs = [] ∧ u.mode = .running ∧ u.pc.toNat = 4096) :=
  ⟨{ State.reset with pc := 4095 }, { State.reset with pc := 4096 }, by decide, by decide⟩
theorem witness_UnknownOpcodeIsReported : State.reset.inputs = [] ∧ State.reset.mode = .running ∧ State.reset.pc.toNat + 1 ≤ 4095 ∧
    (0 : Word) = joinBytes (State.reset.mem.read State.reset.pc.toNat) (State.reset.mem.read (State.reset.pc.toNat + 1)) ∧
    legalWord 0 = false := by decide
theorem witness_NoCycleOutsideRunning : ∃ s u : State, (s.mode ≠ .running ∧ s.inputs = []) ∧ (u.mode ≠ .running ∧ u.inputs = .cycle :: []) :=
  ⟨{ State.reset with mode := .faulted }, { State.reset with mode := .waitingForKey 3, inputs := [.cycle] }, by decide, by decide⟩
theorem witness_RetReturnsToThePoppedAddress : ∃ s u w : State, s.sp.val = (0 : Fin 16).val + 1 ∧ u.sp.val = (15 : Fin 16).val + 1 ∧ w.sp.val = 0 :=
  ⟨{ State.reset with sp := 1 }, { State.reset with sp := 16 }, State.reset, by decide⟩
theorem witness_RetReturnsToThePoppedAddress_beyond : after (exec .ret { State.reset with sp := 1, stack := State.reset.stack.set 0 4096 })
    (fun t => decide (4095 ≤ t.pc.toNat)) = some true := by decide
theorem witness_JumpGoesToTheAddress : (0xFFF : Addr).toNat = 4095 := by decide
theorem witness_CallPushesTheReturnAddress : ∃ s u : State, s.sp.val = 15 ∧ u.sp.val = 16 :=
  ⟨{ State.reset with sp := 15 }, { State.reset with sp := 16 }, by decide⟩
theorem witness_SkipsOnRegisters : (1 : BitVec 4) ≠ 0 ∧ (15 : BitVec 4) ≠ 0 := by decide
theorem witness_IndexedJumpAddsRegisterZero : 4095 ≤ (0xFF0 : Addr).toNat + ((with01 15 0).reg 0).toNat := by decide
theorem witness_ReturnUndoesCall : ∃ s t u : State, s.sp.val < 16 ∧ exec (.call 0x300) s = .next t ∧ u.sp = t.sp ∧ u.stack = t.stack :=
  ⟨{ State.reset with sp := 15 }, _, _, by decide, rfl, rfl, rfl⟩
theorem witness_destination_not_VF : (14 : Reg) ≠ 15 := by decide
theorem witness_SubtractWritesDifferenceAndNotBorrow : 255 = ((with01 255 0).reg 0).toNat ∧ 0 = ((with01 255 0).reg 1).toNat := by decide
theorem witness_ShiftsMoveOneBitOut : 0x81 = ((with01 0 0x81).reg 1).toNat := by decide
theorem witness_RandomIsMasked : (0x0F : Byte).getLsbD 7 = false := by decide
theorem witness_StoresDecimalDigits : (atTop 3).i.toNat + 2 ≤ 4095 ∧ 0 = ((atTop 3).reg 0).toNat ∧ (atTop 3).mem.wf := by decide
theorem witness_StoresRegisterBlock : (atTop 16).i.toNat + (15 : Reg).val ≤ 4095 ∧ (atTop 16).mem.wf ∧ (15 : Reg) ≤ 15 := by decide
theorem witness_LoadsRegisterBlock : (atTop 15).i.toNat + (14 : Reg).val ≤ 4095 ∧ (14 : Reg) ≤ 14 ∧ (14 : Reg) < 15 := by decide
theorem witness_BlockLoadRestoresBlockStore : ∃ s t u : State, s.mem.wf ∧ s.i.toNat + (2 : Reg).val ≤ 4095 ∧
    exec (.storeRegs 2) s = .next t ∧ u.mem = t.mem ∧ u.i = t.i ∧ (2 : Reg) ≤ 2 :=
  ⟨{ State.reset with i := 0x300 }, _, _, by decide, by decide, rfl, rfl, rfl, by decide⟩
/-- The store over one byte of the next word only, over both, and over none, each within memory. -/
theorem witness_StoredCodeIsFetched : ∃ s u w : State, (s.mem.wf ∧ s.pc.toNat + 1 ≤ 4095 ∧ s.i.toNat + (0 : Reg).val ≤ 4095 ∧ s.i.toNat = s.pc.toNat) ∧
    (u.mem.wf ∧ u.pc.toNat + 1 ≤ 4095 ∧ u.i.toNat + 2 ≤ 4095 ∧ u.i.toNat + 2 = u.pc.toNat + 1) ∧
    (w.mem.wf ∧ w.pc.toNat + 1 ≤ 4095 ∧ w.i.toNat + (15 : Reg).val ≤ 4095 ∧ w.i.toNat + 15 < w.pc.toNat) :=
  ⟨{ State.reset with i := 0x202, pc := 0x202 }, { State.reset with i := 4093, pc := 4094 }, { State.reset with i := 0x100, pc := 0x202 },
    by decide, by decide, by decide⟩
/-- A sprite of one row with its first bit set, drawn at (0, 0): the image holds the pixel (0, 0) and not the pixel (1, 0). -/
theorem witness_DrawInvertsTheSpriteImage : ∃ s : State, ((1 : Fin 16).val = 0 ∨ s.i.toNat + (1 : Fin 16).val - 1 ≤ 4095) ∧
    SpriteSets s.mem s.i.toNat 1 (s.reg 0).toNat (s.reg 1).toNat 0 0 ∧ ¬ SpriteSets s.mem s.i.toNat 1 (s.reg 0).toNat (s.reg 1).toNat 1 0 ∧
    s.fb.pixel 0 0 = true :=
  ⟨{ State.reset with i := 4095, mem := [(4095, 0x80)], fb := State.reset.fb.setPixel 0 0 true }, by decide, by unfold SpriteSets; decide,
    by unfold SpriteSets; decide, by decide⟩
theorem witness_DrawInvertsTheSpriteImage_no_row : (0 : Fin 16).val = 0 ∧
    ∀ u v, ¬ SpriteSets State.reset.mem State.reset.i.toNat 0 (State.reset.reg 0).toNat (State.reset.reg 1).toNat u v :=
  ⟨rfl, fun _ _ ⟨_, h, _⟩ => absurd h (Nat.not_lt_zero _)⟩
theorem witness_DrawingTwiceRestores : ∃ s t : State, (0 : Reg) ≠ 15 ∧ (1 : Reg) ≠ 15 ∧
    ((1 : Fin 16).val = 0 ∨ s.i.toNat + (1 : Fin 16).val - 1 ≤ 4095) ∧ exec (.drw 0 1 1) s = .next t ∧
    SpriteSets s.mem s.i.toNat 1 (s.reg 0).toNat (s.reg 1).toNat 0 0 ∧ s.fb.pixel 0 0 = false :=
  ⟨{ State.reset with i := 4095, mem := [(4095, 0x80)] }, _, by decide, by decide, by decide, rfl, by unfold SpriteSets; decide, by decide⟩
theorem witness_OnlyDisplayInstructionsTouchTheScreen : ∃ s t : State, exec .cls s = .next t ∧ t.rp ≠ s.rp :=
  ⟨State.reset, _, rfl, by decide⟩
theorem witness_OnlyDisplayInstructionsTouchTheScreen_marked : ∃ s t : State, exec (.jp 0) s = .next t ∧ s.rp = true :=
  ⟨{ State.reset with rp := true }, _, rfl, rfl⟩
theorem witness_SkipsOnKey : ∃ s u : State, ((s.reg 0).toNat < 16 ∧ s.keysDown.getLsbD (s.reg 0).toNat = true) ∧
    ¬ ((u.reg 0).toNat < 16 ∧ u.keysDown.getLsbD (u.reg 0).toNat = true) :=
  ⟨{ with01 15 0 with keysDown := 0x8000 }, { with01 16 0 with keysDown := 0xFFFF }, by decide, by decide⟩
theorem witness_KeyPressEndsTheWait : ∃ s : State, s.inputs = .keyPress 15 :: [.tick] ∧ s.mode = .waitingForKey 15 :=
  ⟨{ State.reset with mode := .waitingForKey 15, inputs := [.keyPress 15, .tick] }, rfl, rfl⟩
theorem witness_KeyPressEndsTheWait_running : ∃ s : State, s.inputs = .keyPress 15 :: [] ∧ ∀ x, s.mode ≠ .waitingForKey x :=
  ⟨{ State.reset with inputs := [.keyPress 15] }, rfl, by decide⟩
theorem witness_SoundTimerGatesTheTone : State.reset.mode ≠ .stopped := by decide
theorem witness_TickCountsBothTimersDown : ∃ s u : State, (s.inputs = .tick :: [] ∧ s.mode ≠ .stopped) ∧ (u.inputs = .tick :: [] ∧ u.mode = .stopped) :=
  ⟨{ State.reset with inputs := [.tick] }, { State.reset with mode := .stopped, inputs := [.tick] }, by decide, by decide⟩
theorem witness_TicksTakeTheDelayTimerToZero : ∃ s : State, s.inputs = List.replicate 120 .tick ++ [] ∧ s.mode ≠ .stopped :=
  ⟨{ State.reset with dt := 120, inputs := List.replicate 120 .tick ++ [] }, rfl, by decide⟩
theorem witness_FaultsAreExactlyTheTable : handlerFault (.drw 0 1 2) (atTop 1) = some (.memoryFault, some 4096) ∧
    handlerFault (.drw 0 1 1) (atTop 1) = none ∧ handlerFault .ret State.reset = some (.stackUnderflow, none) ∧
    handlerFault (.storeRegs 1) (atTop 1) = some (.memoryFault, some 4096) ∧ handlerFault (.storeRegs 0) (atTop 1) = none ∧
    handlerFault (.ldB 0) (atTop 3) = none ∧ handlerFault (.ldB 0) (atTop 2) = some (.memoryFault, some 4096) := by decide
theorem witness_FaultedIsTerminal : ∃ s : State, s.mode = .faulted ∧ s.inputs = .tick :: [] ∧ Input.tick ≠ .stop ∧ ∀ p, Input.tick ≠ .reset p :=
  ⟨{ State.reset with mode := .faulted, inputs := [.tick] }, rfl, rfl, by decide, fun _ => Input.noConfusion⟩
theorem witness_StoppedIsTerminal : ∃ s : State, s.mode = .stopped ∧ s.inputs = .tick :: [] ∧ ∀ p, Input.tick ≠ .reset p :=
  ⟨{ State.reset with mode := .stopped, inputs := [.tick] }, rfl, rfl, fun _ => Input.noConfusion⟩
theorem witness_StopEndsTheRun : ∃ s : State, s.inputs = .stop :: [] := ⟨{ State.reset with inputs := [.stop] }, rfl⟩
theorem witness_RenderTakesSnapshotAndClears : ∃ s u : State, (s.inputs = .redrawAck :: [] ∧ s.rp = true) ∧ (u.inputs = .redrawAck :: [] ∧ u.rp = false) :=
  ⟨{ State.reset with rp := true, inputs := [.redrawAck] }, { State.reset with inputs := [.redrawAck] }, ⟨rfl, rfl⟩, ⟨rfl, rfl⟩⟩
theorem witness_EntryPointIsFixed : ∃ s t : State, s.inputs = .reset [] :: [] ∧ step s = .next t :=
  ⟨{ State.reset with inputs := [.reset []] }, _, rfl, rfl⟩
theorem witness_ResetLoadsTheImage : ∃ s u : State, (s.inputs = .reset (List.replicate 3584 0) :: [] ∧ (List.replicate 3584 (0 : Byte)).length ≤ 3584) ∧
    (u.inputs = .reset (List.replicate 3585 0) :: [] ∧ 3584 < (List.replicate 3585 (0 : Byte)).length) :=
  ⟨{ State.reset with inputs := [.reset (List.replicate 3584 0)] }, { State.reset with inputs := [.reset (List.replicate 3585 0)] },
    ⟨rfl, by rw [List.length_replicate]⟩, ⟨rfl, by rw [List.length_replicate]; decide⟩⟩
theorem reset_meets_Inv : Inv State.reset where
  mem := Memory.wf_nil
  pc := by decide
  stack := fun k hk => absurd hk (Nat.not_lt_zero _)
  running := fun _ => rfl
  waiting := fun _ _ => rfl
  faulted := by simp [State.reset]
  record := by simp [State.reset]
theorem witness_StepKeepsTheInvariant : ∃ s t : State, Inv s ∧ step s = .next t := ⟨State.reset, _, reset_meets_Inv, rfl⟩
theorem witness_RegistersWrittenAreTheTable : ∃ s t : State, exec (.addReg 3 4) s = .next t ∧ (5 : Reg) ∉ writtenRegs (.addReg 3 4) :=
  ⟨State.reset, _, rfl, by decide⟩
theorem witness_OnlyStoresWriteMemory : ∃ s t : State, exec (.storeRegs 0) s = .next t ∧ t.mem ≠ s.mem :=
  ⟨{ with01 5 0 with i := 0x300 }, _, rfl, by decide⟩
theorem witness_SpecialRegistersHaveTheirWriters : ∃ s t u w x : State, (exec (.ldI 5) s = .next t ∧ t.i ≠ s.i) ∧
    (exec (.call 5) s = .next u ∧ u.stack ≠ s.stack ∧ u.sp ≠ s.sp) ∧ (exec (.ldDTVx 0) s = .next w ∧ w.dt ≠ s.dt) ∧
    (exec (.ldSTVx 0) s = .next x ∧ x.st ≠ s.st) :=
  ⟨with01 5 0, _, _, _, _, ⟨rfl, by decide⟩, ⟨rfl, by decide, by decide⟩, ⟨rfl, by decide⟩, ⟨rfl, by decide⟩⟩
theorem witness_OutputsAreNeverObserved : ∃ s t : State, exec (.ldVxDT 0) s = .next t := ⟨State.reset, _, rfl⟩
theorem witness_KeysAreSeenOnlyByTheKeySkips : ∃ s t : State, (∀ x, Instr.ldVxK 3 ≠ .skp x) ∧ (∀ x, Instr.ldVxK 3 ≠ .sknp x) ∧
    exec (.ldVxK 3) s = .next t := ⟨State.reset, _, fun _ => Instr.noConfusion, fun _ => Instr.noConfusion, rfl⟩
theorem witness_KeysArePresented : ∃ s u : State, s.inputs = .keys 0xFFFF :: [] ∧ (u.inputs = .keys 0 :: [.cycle] ∧ u.mode = .stopped) :=
  ⟨{ State.reset with inputs := [.keys 0xFFFF] }, { State.reset with mode := .stopped, inputs := [.keys 0, .cycle] }, rfl, rfl, rfl⟩
theorem witness_FaultIsPresentedToTheHost : ∃ s t u : State,
    (TakesFault .memoryFault 4095 none (some 4096) s t ∧ t.inputs = .stop :: []) ∧
    (TakesFault .memoryFault 4095 none (some 4096) u u ∧ u.inputs = .reset [] :: [] ∧ ([] : List Byte).length ≤ 3584) :=
  ⟨{ State.reset with inputs := [.stop] },
    { State.reset with inputs := [.stop], mode := .faulted, fault := some ⟨.memoryFault, 4095, none, some 4096⟩ },
    { State.reset with inputs := [.reset []], mode := .faulted, fault := some ⟨.memoryFault, 4095, none, some 4096⟩ },
    ⟨rfl, rfl⟩, rfl, rfl, by decide⟩

end Sys2Proof.Tests
end

section
/-!
PROOFS. Control transfer (spec/40_flow.md): jumps and skips on a constant, with the rules about decoding, the program counter and the next
fetch that they rest on.
-/

namespace Sys2Proof

/-- The decoder inverts the encoder: the fields of the encoded word are the operands, and its literal bits select the instruction (R95, R97, R98). -/
theorem decodeWord_encode (i : Instr) : decodeWord (encode i) = .ok i := by
  cases i with
  | cls | ret => decide
  | jp | call | ldI | jpV0 | seByte | sneByte | ldByte | addByte | rnd | drw => simp [decodeWord, encode]
  | seReg | sneReg => simp [decodeWord, encode, decodeLowNibble0]
  | ldReg | orReg | andReg | xorReg | addReg | subReg | shr | subn | shl => simp [decodeWord, encode, decodeFamily8]
  | skp | sknp => simp [decodeWord, encode, decodeFamilyE]
  | ldVxDT | ldVxK | ldDTVx | ldSTVx | addI | ldF | ldB | storeRegs | loadRegs => simp [decodeWord, encode, decodeFamilyF]

end Sys2Proof

namespace Sys2Proof.Machine

/-! The dispatch of the instructions below (R93). -/

theorem exec_jp (nnn : Addr) (s : State) : exec (.jp nnn) s = .next (s.setPc (target nnn)) := rfl

theorem exec_jpV0 (nnn : Addr) (s : State) : exec (.jpV0 nnn) s = .next (s.setPc (indexedTarget s nnn)) := rfl

theorem exec_seByte (x : Reg) (kk : Byte) (s : State) : exec (.seByte x kk) s = .next (s.skipIf (s.reg x == kk)) := rfl

theorem exec_sneByte (x : Reg) (kk : Byte) (s : State) : exec (.sneByte x kk) s = .next (s.skipIf (s.reg x != kk)) := rfl

/-! The program counter alone. -/

theorem onlyPc_setPc (s : State) (a : Word) : OnlyPc s (s.setPc a) := ⟨fun _ => rfl, fun _ => rfl, rfl⟩

theorem onlyPc_skipIf (s : State) (c : Bool) : OnlyPc s (s.skipIf c) := s.skipIf_eq c ▸ onlyPc_setPc s _

theorem nextFetchFails_of_le {t : State} (h : 4095 ≤ t.pc.toNat) : NextFetchFails t := ⟨_, fetch_of_le h⟩

/-- The address field is zero-extended (R96). -/
@[simp] theorem toNat_target (nnn : Addr) : (target nnn).toNat = nnn.toNat := BitVec.toNat_setWidth_of_le (by decide)

/-- The sum of Bnnn is at most 4350, so that 16 bits hold it whole (R127). -/
@[simp] theorem toNat_indexedTarget (s : State) (nnn : Addr) : (indexedTarget s nnn).toNat = nnn.toNat + (s.reg 0).toNat := by
  have hsum : nnn.toNat + (s.reg 0).toNat < 2 ^ 16 := by omega
  rw [indexedTarget, BitVec.toNat_add, BitVec.toNat_setWidth_of_le (by decide), BitVec.toNat_setWidth_of_le (by decide),
    Nat.mod_eq_of_lt hsum]

/-- Settles O12: the jump sets `PC` to the zero-extended `nnn` and no more, and 4095 is past the last address a word is fetched from. -/
theorem jumpGoesToTheAddress : Obligations.JumpGoesToTheAddress := by
  intro nnn s
  refine ⟨decodeWord_encode (.jp nnn), _, exec_jp nnn s, toNat_target nnn, onlyPc_setPc s _, fun h => nextFetchFails_of_le ?_⟩
  rw [State.setPc_pc, toNat_target, h]

/-- Settles O14: both skips are `skipIf`, with opposite conditions. -/
theorem skipsOnConstant : Obligations.SkipsOnConstant := by
  intro x kk s
  refine ⟨decodeWord_encode (.seByte x kk), decodeWord_encode (.sneByte x kk),
    ⟨_, exec_seByte x kk s, ?_, onlyPc_skipIf s _⟩, ⟨_, exec_sneByte x kk s, ?_, onlyPc_skipIf s _⟩⟩
  · rw [State.skipIf_pc]; simp only [beq_iff_eq]
  · rw [State.skipIf_pc]; simp only [bne_iff_ne, ite_not]

/-- Settles O16: the sum of `nnn` and `V[0]` does not wrap, so `PC` takes it whole and the next fetch sees it. -/
theorem indexedJumpAddsRegisterZero : Obligations.IndexedJumpAddsRegisterZero := by
  intro nnn s
  refine ⟨decodeWord_encode (.jpV0 nnn), _, exec_jpV0 nnn s, toNat_indexedTarget s nnn, onlyPc_setPc s _, fun h => nextFetchFails_of_le ?_⟩
  rwa [State.setPc_pc, toNat_indexedTarget]

end Sys2Proof.Machine
end

section
/-!
PROOFS. Register loads and arithmetic (spec/41_alu.md): a write of one register, and the two instructions with a constant operand.
-/

namespace Sys2Proof.Machine

/-! The dispatch of the instructions below (R93). -/

theorem exec_ldByte (x : Reg) (kk : Byte) (s : State) : exec (.ldByte x kk) s = .next (s.setReg x kk) := rfl

theorem exec_addByte (x : Reg) (kk : Byte) (s : State) : exec (.addByte x kk) s = .next (s.setReg x (s.reg x + kk)) := rfl

/-! One register alone. -/

theorem reg_setReg_self (s : State) (x : Reg) (b : Byte) : (s.setReg x b).reg x = b := by
  rw [State.reg_setReg, if_pos rfl]

theorem onlyRegs_setReg (s : State) (x : Reg) (b : Byte) : OnlyRegs [x] s (s.setReg x b) where
  regs z hz := by rw [State.reg_setReg, if_neg (List.ne_of_not_mem_cons hz)]
  bytes _ := rfl
  rest := rfl

/-- Settles O18: both instructions write `V[x]` alone, and the sum of two bytes is taken modulo 256. -/
theorem loadsAndAddsConstant : Obligations.LoadsAndAddsConstant := by
  intro x kk s
  refine ⟨decodeWord_encode (.ldByte x kk), decodeWord_encode (.addByte x kk),
    ⟨_, exec_ldByte x kk s, reg_setReg_self s x kk, onlyRegs_setReg s x kk⟩, ⟨_, exec_addByte x kk s, ?_, onlyRegs_setReg s x _⟩⟩
  rw [reg_setReg_self, BitVec.toNat_add]

end Sys2Proof.Machine
end

section
/-!
PROOFS. The index register (spec/42_index_memory.md): a write of `I` alone, and the loads of an address and of a glyph's address.
-/

namespace Sys2Proof.Machine

/-! The dispatch of the instructions below (R93). -/

theorem exec_ldI (nnn : Addr) (s : State) : exec (.ldI nnn) s = .next (s.setI (target nnn)) := rfl

theorem exec_ldF (x : Reg) (s : State) : exec (.ldF x) s = .next (s.setI (glyphAddress (s.reg x))) := rfl

/-! The index register alone. -/

/-- What a write of `I` leaves unchanged, in the form the obligations state it. -/
theorem setI_frame (s : State) (a : Word) :
    (∀ z, (s.setI a).reg z = s.reg z) ∧ SameBytes s (s.setI a) ∧ s.setI a = { s with i := (s.setI a).i } :=
  ⟨State.reg_setI s a, fun _ => rfl, rfl⟩

/-- The product of Fx29 is at most 1275, so that 16 bits hold it whole (R172). -/
@[simp] theorem toNat_glyphAddress (b : Byte) : (glyphAddress b).toNat = 5 * b.toNat := by
  have hproduct : 5 * b.toNat < 2 ^ 16 := by omega
  rw [glyphAddress, BitVec.toNat_mul, BitVec.toNat_setWidth_of_le (by decide)]
  exact Nat.mod_eq_of_lt hproduct

/-- The highest glyph address is so far below the top of memory that no sprite, of 15 rows at most, passes it (R61, R172). -/
theorem outOfRange_glyphAddress (b : Byte) {len : Nat} (hlen : len ≤ 15) : outOfRange (glyphAddress b).toNat len = none := by
  rw [outOfRange_eq_none, toNat_glyphAddress]
  omega

/-- Settles O25: both instructions write `I` alone, and neither the address nor the product wraps. -/
theorem indexLoadsAddressAndGlyph : Obligations.IndexLoadsAddressAndGlyph := by
  intro nnn x s
  exact ⟨decodeWord_encode (.ldI nnn), decodeWord_encode (.ldF x),
    ⟨_, exec_ldI nnn s, toNat_target nnn, setI_frame s _⟩,
    ⟨_, exec_ldF x s, toNat_glyphAddress _, fun _ => outOfRange_glyphAddress _, setI_frame s _⟩⟩

end Sys2Proof.Machine
end

section
/-!
PROOFS. The display (spec/43_display.md): the clearing of the screen.
-/

namespace Sys2Proof.Machine

/-! The dispatch of the instruction below (R93). -/

theorem exec_cls (s : State) : exec .cls s = .next (s.setScreen Framebuffer.clear) := rfl

/-! The framebuffer and the redraw mark alone. -/

/-- What a write of the framebuffer leaves unchanged, in the form the obligations state it. -/
theorem setScreen_frame (s : State) (fb : Framebuffer) :
    (∀ z, (s.setScreen fb).reg z = s.reg z) ∧ SameBytes s (s.setScreen fb) ∧
      s.setScreen fb = { s with fb := (s.setScreen fb).fb, rp := (s.setScreen fb).rp } :=
  ⟨State.reg_setScreen s fb, fun _ => rfl, rfl⟩

/-- Settles O32: the cleared framebuffer and the set mark do not depend on the state before, so that a second 00E0 writes them again. -/
theorem clearScreen : Obligations.ClearScreen := by
  refine ⟨decodeWord_encode .cls, fun s => ⟨_, exec_cls s, Framebuffer.pixel_clear, State.setScreen_rp s _, ?_⟩⟩
  obtain ⟨hregs, hbytes, hrest⟩ := setScreen_frame s Framebuffer.clear
  exact ⟨hregs, hbytes, hrest, fun b => ⟨_, exec_cls _, rfl, rfl⟩⟩

end Sys2Proof.Machine
end

section
/-!
PROOFS. The timers (spec/60_exceptions.md): one tick due, and a row of ticks with no instruction between them.
-/

namespace Sys2Proof.Machine

/-- The step of a tick due where ticks are enabled (R240). -/
theorem step_tick {s : State} {rest : List Input} (hi : s.inputs = .tick :: rest) (hm : s.mode ≠ .stopped) :
    step s = .next { s with dt := countDown s.dt, st := countDown s.st, inputs := rest } := by
  rw [step_of_input hi]
  exact congrArg Host.Outcome.next (tick_of_ne_stopped (s := { s with inputs := rest }) hm)

/-- A run goes on from the state its first step answers. -/
theorem run_succ_of_step {s t : State} (h : step s = .next t) (k : Nat) :
    Host.Core.run core (k + 1) s = Host.Core.run core k t := by
  simp only [Host.Core.run, show core.step s = .next t from h]

/-- Settles O42, by induction on the number of ticks: the first takes one from `DT` and leaves a mode in which the others are enabled. -/
theorem ticksTakeTheDelayTimerToZero : Obligations.TicksTakeTheDelayTimerToZero := by
  intro k
  induction k with
  | zero =>
    rintro s rest hi -
    exact ⟨s, rfl, rfl, by rw [← show s.inputs = rest from hi]⟩
  | succ k ih =>
    intro s rest hi hm
    have hstep := step_tick (rest := List.replicate k .tick ++ rest) hi hm
    obtain ⟨t, hrun, hdt, hframe⟩ := ih { s with dt := countDown s.dt, st := countDown s.st, inputs := _ } rest rfl hm
    refine ⟨t, (run_succ_of_step hstep k).trans hrun, ?_, hframe⟩
    rw [hdt, toNat_countDown]
    omega

end Sys2Proof.Machine
end

section
/-!
PROOFS. Reset (spec/70_reset_and_hazards.md): what a reset that completes answers, and the entry point.
-/

namespace Sys2Proof.Machine

/-- A restart that answers has loaded an image that fits, over the reset memory, and reset the rest of the engine (R270, R272, R273). -/
theorem restart_eq_next {p : List Byte} {s t : State} (h : restart p s = .next t) :
    outOfRange 512 p.length = none ∧
      t = { State.reset with mem := State.reset.mem.writeBytes 512 p, keysDown := s.keysDown, draws := s.draws, inputs := s.inputs } := by
  unfold restart at h
  cases hload : State.reset.mem.loadBlock 512 p with
  | error a => rw [hload] at h; cases h
  | ok m =>
    obtain ⟨hfits, rfl⟩ := Memory.loadBlock_eq_ok.mp hload
    rw [hload] at h
    exact ⟨hfits, (Host.Outcome.next.inj h).symm⟩

/-- With `PC` at the entry point, the next fetch reads the first two bytes of the program (R64, R90, R271). -/
theorem fetch_of_pc_eq_512 {s : State} (h : s.pc.toNat = 512) :
    fetch s = .ok (joinBytes (s.mem.read 512) (s.mem.read 513)) := by
  rw [fetch_of_lt (by omega), h]

/-- Settles O49: a reset that completes takes `PC` and the mode from the reset state, whatever the image, and the fetch depends on `PC` and
memory alone. -/
theorem entryPointIsFixed : Obligations.EntryPointIsFixed := by
  refine ⟨⟨rfl, rfl, fetch_of_pc_eq_512 rfl⟩, fun s t p rest hinputs hstep => ?_⟩
  rw [step_of_input hinputs] at hstep
  obtain ⟨-, rfl⟩ := restart_eq_next hstep
  exact ⟨rfl, rfl, fetch_of_pc_eq_512 rfl⟩

end Sys2Proof.Machine
end

section
/-!
PROOFS. Encoding and decoding (spec/30_encoding.md): the two are inverse to each other, and the selectors of the decoder agree with the
mask and match rows of the opcode map.
-/

namespace Sys2Proof

/-! A word is the word of its fields, in each format; the literal fields are given as the decoder's selectors compare them, as numbers (R94). -/

theorem encodeNNN_of_fields {w : Word} {t : BitVec 4} (ht : (fieldsOf w).t.toNat = t.toNat) :
    encodeNNN t (fieldsOf w).nnn = w := by
  rw [← BitVec.eq_of_toNat_eq ht, encodeNNN, fieldsOf]
  exact (BitVec.extractLsb'_append_extractLsb'_eq_extractLsb' (start₁ := 0) rfl).trans BitVec.extractLsb'_eq_self

theorem highByte_of_fields {w : Word} {t : BitVec 4} (ht : (fieldsOf w).t.toNat = t.toNat) :
    t ++ nibble (fieldsOf w).x = w.extractLsb' 8 8 :=
  BitVec.eq_of_toNat_eq ht ▸ BitVec.extractLsb'_append_extractLsb'_eq_extractLsb' (start₁ := 8) rfl

theorem encodeXKK_of_fields {w : Word} {t : BitVec 4} {kk : Byte} (ht : (fieldsOf w).t.toNat = t.toNat)
    (hkk : (fieldsOf w).kk.toNat = kk.toNat) : encodeXKK t (fieldsOf w).x kk = w := by
  rw [encodeXKK, highByte_of_fields ht, ← BitVec.eq_of_toNat_eq hkk]
  exact joinBytes_bytesOf w

theorem encodeXYN_of_fields {w : Word} {t n : BitVec 4} (ht : (fieldsOf w).t.toNat = t.toNat) (hn : (fieldsOf w).n.val = n.toNat) :
    encodeXYN t (fieldsOf w).x (fieldsOf w).y n = w := by
  have hxy : t ++ nibble (fieldsOf w).x ++ nibble (fieldsOf w).y = w.extractLsb' 4 12 := by
    rw [highByte_of_fields ht]
    exact BitVec.extractLsb'_append_extractLsb'_eq_extractLsb' (start₁ := 4) rfl
  have hn' : n = w.extractLsb' 0 4 := BitVec.eq_of_toNat_eq hn.symm
  rw [encodeXYN, hxy, hn']
  exact (BitVec.extractLsb'_append_extractLsb'_eq_extractLsb' (start₁ := 0) rfl).trans BitVec.extractLsb'_eq_self

/-! What the decoder accepts has the decoded word for its encoding, family by family (R97, R98). -/

theorem encode_of_decodeFamily0 {w : Word} {i : Instr} (h : decodeFamily0 w = .ok i) : encode i = w := by
  unfold decodeFamily0 at h
  split_ifs at h with h0 h1
  · cases h; exact h0.symm
  · cases h; exact h1.symm

theorem encode_of_decodeFamily8 {w : Word} {i : Instr} (ht : (fieldsOf w).t.toNat = 8) (h : decodeFamily8 w (fieldsOf w) = .ok i) :
    encode i = w := by
  unfold decodeFamily8 at h
  split at h <;> cases h <;> exact encodeXYN_of_fields ht ‹_›

theorem encode_of_decodeFamilyE {w : Word} {i : Instr} (ht : (fieldsOf w).t.toNat = 14) (h : decodeFamilyE w (fieldsOf w) = .ok i) :
    encode i = w := by
  unfold decodeFamilyE at h
  split at h <;> cases h <;> exact encodeXKK_of_fields ht ‹_›

theorem encode_of_decodeFamilyF {w : Word} {i : Instr} (ht : (fieldsOf w).t.toNat = 15) (h : decodeFamilyF w (fieldsOf w) = .ok i) :
    encode i = w := by
  unfold decodeFamilyF at h
  split at h <;> cases h <;> exact encodeXKK_of_fields ht ‹_›

theorem decodeLowNibble0_eq_ok {w : Word} {f : Fields} {i j : Instr} (h : decodeLowNibble0 w f i = .ok j) : f.n = 0 ∧ j = i := by
  unfold decodeLowNibble0 at h
  split_ifs at h with hn
  exact ⟨hn, (Except.ok.inj h).symm⟩

/-- The encoder inverts the decoder: no bit of an accepted word is dropped (R95, R97, R98). -/
theorem encode_of_decodeWord {w : Word} {i : Instr} (h : decodeWord w = .ok i) : encode i = w := by
  unfold decodeWord at h
  dsimp only at h
  split at h
  case h_1 => exact encode_of_decodeFamily0 h
  case h_2 | h_3 | h_11 | h_12 => cases h; exact encodeNNN_of_fields ‹_›
  case h_4 | h_5 | h_7 | h_8 | h_13 => cases h; exact encodeXKK_of_fields ‹_› rfl
  case h_6 | h_10 =>
    obtain ⟨hn, rfl⟩ := decodeLowNibble0_eq_ok h
    exact encodeXYN_of_fields ‹_› (congrArg Fin.val hn)
  case h_9 => exact encode_of_decodeFamily8 ‹_› h
  case h_14 => cases h; exact encodeXYN_of_fields ‹_› rfl
  case h_15 => exact encode_of_decodeFamilyE ‹_› h
  case h_16 => exact encode_of_decodeFamilyF ‹_› h
  case h_17 => cases h

/-- Settles O1: storing a word and decoding its bytes is decoding the word, which the decoder inverts. -/
theorem decodeOfEncodeIsIdentity : Obligations.DecodeOfEncodeIsIdentity := by
  intro i rest
  rw [encodeBytes, decode_bytesOf, decodeWord_encode]
  rfl

/-- Settles O2: bytes that decode are two at least, and the word they join is the encoding of what they decode to. -/
theorem encodeOfDecodeIsIdentity : Obligations.EncodeOfDecodeIsIdentity := by
  intro bs rest i h
  match bs with
  | [] | [_] => cases h
  | hi :: lo :: tail =>
    cases hd : decodeWord (joinBytes hi lo) with
    | error e => rw [decode, hd] at h; cases h
    | ok j =>
      rw [decode, hd] at h
      cases h
      rw [encodeBytes, encode_of_decodeWord hd, bytesOf, highByte_joinBytes, lowByte_joinBytes]
      rfl

end Sys2Proof
end

section
/-!
PROOFS. The opcode map (spec/30_encoding.md R95, R99): its rows are disjoint, and in terms of a word's fields it leaves out the six classes
that the decoder rejects.
-/

namespace Sys2Proof

/-! The rows of the map (R95). -/

/-- Two rows ask different values of a bit that is literal in both. -/
def Pattern.Clash (p q : Pattern) : Prop := p.value &&& q.mask ≠ q.value &&& p.mask

theorem Pattern.covers_iff {p : Pattern} {w : Word} : p.covers w = true ↔ w &&& p.mask = p.value := beq_iff_eq

theorem Pattern.not_covers_of_clash {p q : Pattern} {w : Word} (h : p.Clash q) (hp : p.covers w = true) (hq : q.covers w = true) :
    False := by
  apply h
  rw [← covers_iff.mp hp, ← covers_iff.mp hq, BitVec.and_assoc, BitVec.and_assoc, BitVec.and_comm p.mask]

theorem opcodeMap_pairwise_clash : opcodeMap.Pairwise Pattern.Clash := by
  unfold Pattern.Clash
  decide

/-- Settles O5: any two rows clash in a literal bit, so that two rows left by the filter would both cover the word. -/
theorem opcodeRowsAreDisjoint : Obligations.OpcodeRowsAreDisjoint := by
  intro w
  have hclash : (opcodeMap.filter fun p => p.covers w).Pairwise Pattern.Clash := opcodeMap_pairwise_clash.filter _
  match hrows : opcodeMap.filter fun p => p.covers w with
  | [] | [_] => rw [hrows]; simp
  | p :: q :: rows =>
    rw [hrows, List.pairwise_cons] at hclash
    have hcovers : ∀ r ∈ p :: q :: rows, r.covers w = true := fun r hr => by
      rw [← hrows] at hr
      exact (List.mem_filter.mp hr).2
    exact (Pattern.not_covers_of_clash (hclash.1 q (by simp)) (hcovers p (by simp)) (hcovers q (by simp))).elim

/-! The rows that cover a word, in terms of its fields: one lemma per mask of the map. -/

theorem covers_FFFF {v w : Word} :
    Pattern.covers ⟨0xFFFF, v⟩ w = true ↔ (fieldsOf w).t = (fieldsOf v).t ∧ (fieldsOf w).nnn = (fieldsOf v).nnn := by
  rw [Pattern.covers_iff, show w &&& 0xFFFF = w from BitVec.and_allOnes]
  refine ⟨fun h => h ▸ ⟨rfl, rfl⟩, fun ⟨ht, hnnn⟩ => ?_⟩
  rw [← encodeNNN_of_fields (w := w) rfl, ht, hnnn, encodeNNN_of_fields rfl]

theorem covers_F000 {v w : Word} (hv : v &&& 0xF000 = v) : Pattern.covers ⟨0xF000, v⟩ w = true ↔ (fieldsOf w).t = (fieldsOf v).t := by
  have hkeep (u : Word) : u &&& 0xF000 = encodeNNN (fieldsOf u).t 0 :=
    (congrArg (· &&& 0xF000) (encodeNNN_of_fields rfl).symm).trans (Laws.EncodeLegal.nnn_and _ _)
  rw [Pattern.covers_iff, ← hv, hkeep, hkeep v]
  refine ⟨fun h => ?_, fun ht => by rw [ht, fieldsOf_encodeNNN_t]⟩
  simpa using congrArg (fun u => (fieldsOf u).t) h

theorem covers_F00F {v w : Word} (hv : v &&& 0xF00F = v) :
    Pattern.covers ⟨0xF00F, v⟩ w = true ↔ (fieldsOf w).t = (fieldsOf v).t ∧ (fieldsOf w).n = (fieldsOf v).n := by
  have hkeep (u : Word) : u &&& 0xF00F = encodeXYN (fieldsOf u).t 0 0 (nibble (fieldsOf u).n) :=
    (congrArg (· &&& 0xF00F) (encodeXYN_of_fields rfl rfl).symm).trans (Laws.EncodeLegal.xyn_and_low _ _ _ _)
  rw [Pattern.covers_iff, ← hv, hkeep, hkeep v]
  refine ⟨fun h => ?_, fun ⟨ht, hn⟩ => by simp [ht, hn]⟩
  simpa using congrArg (fun u => ((fieldsOf u).t, (fieldsOf u).n)) h

theorem covers_F0FF {v w : Word} (hv : v &&& 0xF0FF = v) :
    Pattern.covers ⟨0xF0FF, v⟩ w = true ↔ (fieldsOf w).t = (fieldsOf v).t ∧ (fieldsOf w).kk = (fieldsOf v).kk := by
  have hkeep (u : Word) : u &&& 0xF0FF = encodeXKK (fieldsOf u).t 0 (fieldsOf u).kk :=
    (congrArg (· &&& 0xF0FF) (encodeXKK_of_fields rfl rfl).symm).trans (Laws.EncodeLegal.xkk_and_low _ _ _)
  rw [Pattern.covers_iff, ← hv, hkeep, hkeep v]
  refine ⟨fun h => ?_, fun ⟨ht, hkk⟩ => by simp [ht, hkk]⟩
  simpa using congrArg (fun u => ((fieldsOf u).t, (fieldsOf u).kk)) h

/-- The rows of the map in terms of the fields: the whole families, and the selectors of the others (R97, R98). -/
def LegalFields (f : Fields) : Prop :=
  (f.t = 0x0 ∧ f.nnn ∈ [0x0E0, 0x0EE]) ∨
  f.t ∈ [0x1, 0x2, 0x3, 0x4, 0x6, 0x7, 0xA, 0xB, 0xC, 0xD] ∨
  (f.t ∈ [0x5, 0x9] ∧ f.n = 0) ∨
  (f.t = 0x8 ∧ f.n ∈ [0x0, 0x1, 0x2, 0x3, 0x4, 0x5, 0x6, 0x7, 0xE]) ∨
  (f.t = 0xE ∧ f.kk ∈ [0x9E, 0xA1]) ∨
  (f.t = 0xF ∧ f.kk ∈ [0x07, 0x0A, 0x15, 0x18, 0x1E, 0x29, 0x33, 0x55, 0x65])

/-- Row by row, the map asks what `LegalFields` does; only the grouping differs (R95). -/
theorem legalWord_iff {w : Word} : legalWord w = true ↔ LegalFields (fieldsOf w) := by
  simp (disch := decide) only [legalWord, opcodeMap, patternsLow, patternsAlu, patternsHigh, List.any_append, List.any_cons, List.any_nil,
    Bool.or_eq_true, Bool.or_false, covers_FFFF, covers_F000, covers_F00F, covers_F0FF]
  generalize fieldsOf w = f
  simp only [fieldsOf, LegalFields, BitVec.ofNat_eq_ofNat, BitVec.reduceExtractLsb', BitVec.toFin_ofNat, Nat.reducePow, Fin.ofNat_eq_cast,
    Fin.natCast_zero, Fin.isValue, Nat.cast_ofNat, List.mem_cons, List.not_mem_nil, or_false]
  grind

/-- The illegal fields are the six classes of R99: the complement, family by family. -/
theorem not_legalFields_iff {f : Fields} :
    ¬ LegalFields f ↔
      (f.t = 0x0 ∧ f.nnn ≠ 0x0E0 ∧ f.nnn ≠ 0x0EE) ∨
      (f.t = 0x5 ∧ f.n ≠ 0) ∨
      (f.t = 0x8 ∧ f.n ∈ [0x8, 0x9, 0xA, 0xB, 0xC, 0xD, 0xF]) ∨
      (f.t = 0x9 ∧ f.n ≠ 0) ∨
      (f.t = 0xE ∧ f.kk ∉ [0x9E, 0xA1]) ∨
      (f.t = 0xF ∧ f.kk ∉ [0x07, 0x0A, 0x15, 0x18, 0x1E, 0x29, 0x33, 0x55, 0x65]) := by
  obtain ⟨t, x, y, n, kk, nnn⟩ := f
  have hfamilies : t = 0x0 ∨ t = 0x5 ∨ t = 0x8 ∨ t = 0x9 ∨ t = 0xE ∨ t = 0xF ∨
      t ∈ ([0x1, 0x2, 0x3, 0x4, 0x6, 0x7, 0xA, 0xB, 0xC, 0xD] : List (BitVec 4)) := by decide +revert
  have hlow : n ∉ ([0x0, 0x1, 0x2, 0x3, 0x4, 0x5, 0x6, 0x7, 0xE] : List (Fin 16)) ↔
      n ∈ ([0x8, 0x9, 0xA, 0xB, 0xC, 0xD, 0xF] : List (Fin 16)) := by decide +revert
  rcases hfamilies with rfl | rfl | rfl | rfl | rfl | rfl | hwhole
  · simp [LegalFields]
  · simp [LegalFields]
  · simpa [LegalFields] using hlow
  · simp [LegalFields]
  · simp [LegalFields]
  · simp [LegalFields]
  · have hclasses : t ≠ 0x0 ∧ t ≠ 0x5 ∧ t ≠ 0x8 ∧ t ≠ 0x9 ∧ t ≠ 0xE ∧ t ≠ 0xF := by decide +revert
    have hlegal : LegalFields ⟨t, x, y, n, kk, nnn⟩ := .inr (.inl hwhole)
    simp only [hlegal, hclasses, not_true_eq_false, false_and, or_self]

/-- Settles O4: the map in terms of the fields, and its complement. -/
theorem illegalWordsAreTheSixClasses : Obligations.IllegalWordsAreTheSixClasses := by
  rintro w f rfl
  rw [← Bool.not_eq_true, legalWord_iff]
  exact not_legalFields_iff

/-! The decoder's selectors in terms of the fields (R97, R98). -/

theorem legalWord_encode (i : Instr) : legalWord (encode i) = true := by
  cases i with
  | cls | ret => decide
  | orReg x y => exact Laws.EncodeLegal.orReg x y
  | _ => simp [legalWord_iff, LegalFields, encode]

/-- The decoder has one reason to reject a word (R99). -/
theorem eq_unknownOpcode_of_decodeWord {w : Word} {e : Reject} (h : decodeWord w = .error e) : e = .unknownOpcode w := by
  unfold decodeWord decodeFamily0 decodeFamily8 decodeFamilyE decodeFamilyF decodeLowNibble0 at h
  dsimp only at h
  split at h <;> grind

theorem decodeWord_of_legalFields {w : Word} (h : LegalFields (fieldsOf w)) : ∃ i, decodeWord w = .ok i := by
  rcases h with ⟨ht, hnnn⟩ | ht | ⟨ht, hn⟩ | ⟨ht, hn⟩ | ⟨ht, hkk⟩ | ⟨ht, hkk⟩
  · simp only [List.mem_cons, List.not_mem_nil, or_false] at hnnn
    rcases hnnn with hnnn | hnnn
    · have hw : w = 0x00E0 := (encodeNNN_of_fields (congrArg BitVec.toNat ht)).symm.trans (hnnn ▸ rfl)
      exact ⟨.cls, by rw [hw]; rfl⟩
    · have hw : w = 0x00EE := (encodeNNN_of_fields (congrArg BitVec.toNat ht)).symm.trans (hnnn ▸ rfl)
      exact ⟨.ret, by rw [hw]; rfl⟩
  · simp only [List.mem_cons, List.not_mem_nil, or_false] at ht
    rcases ht with ht | ht | ht | ht | ht | ht | ht | ht | ht | ht <;> simp [decodeWord, ht]
  · simp only [List.mem_cons, List.not_mem_nil, or_false] at ht
    rcases ht with ht | ht <;> simp [decodeWord, decodeLowNibble0, ht, hn]
  · simp only [List.mem_cons, List.not_mem_nil, or_false] at hn
    rcases hn with hn | hn | hn | hn | hn | hn | hn | hn | hn <;> simp [decodeWord, decodeFamily8, ht, hn]
  · simp only [List.mem_cons, List.not_mem_nil, or_false] at hkk
    rcases hkk with hkk | hkk <;> simp [decodeWord, decodeFamilyE, ht, hkk]
  · simp only [List.mem_cons, List.not_mem_nil, or_false] at hkk
    rcases hkk with hkk | hkk | hkk | hkk | hkk | hkk | hkk | hkk | hkk <;> simp [decodeWord, decodeFamilyF, ht, hkk]

/-- Settles O3: the fields of a legal word select an instruction, and a word that decodes is an encoding, which is legal. -/
theorem decoderAcceptsExactlyTheOpcodeMap : Obligations.DecoderAcceptsExactlyTheOpcodeMap := by
  intro w
  refine ⟨fun hlegal => decodeWord_of_legalFields (legalWord_iff.mp hlegal), fun hillegal => ?_⟩
  cases hd : decodeWord w with
  | ok i => rw [← encode_of_decodeWord hd, legalWord_encode] at hillegal; cases hillegal
  | error e => rw [eq_unknownOpcode_of_decodeWord hd]

/-- Settles O6: the words of the table are evaluated. -/
theorem specTableOfWordsDecodes : Obligations.SpecTableOfWordsDecodes := by
  unfold Obligations.SpecTableOfWordsDecodes
  decide

end Sys2Proof
end

section
/-!
PROOFS. What an instruction does, in one form for all 34: it takes the fault that the table of R230 names, or it completes in one state.
-/

namespace Sys2Proof.Machine

/-- The state in which an instruction completes where it takes no fault: what each instruction's rule writes. -/
def effect (i : Instr) (s : State) : State :=
  match i with
  | .cls => s.setScreen Framebuffer.clear
  | .ret => { s with sp := ⟨s.sp.val - 1, by omega⟩, pc := s.stack[s.sp.val - 1]'(by omega) }
  | .jp nnn => s.setPc (target nnn)
  | .call nnn =>
    { s with sp := Fin.ofNat 17 (s.sp.val + 1), stack := s.stack.setIfInBounds s.sp.val s.pc, pc := target nnn }
  | .seByte x kk => s.skipIf (s.reg x == kk)
  | .sneByte x kk => s.skipIf (s.reg x != kk)
  | .seReg x y => s.skipIf (s.reg x == s.reg y)
  | .ldByte x kk => s.setReg x kk
  | .addByte x kk => s.setReg x (s.reg x + kk)
  | .ldReg x y => s.setReg x (s.reg y)
  | .orReg x y => s.setReg x (s.reg x ||| s.reg y)
  | .andReg x y => s.setReg x (s.reg x &&& s.reg y)
  | .xorReg x y => s.setReg x (s.reg x ^^^ s.reg y)
  | .addReg x y => (s.setReg x (s.reg x + s.reg y)).setVF (carryOut (s.reg x) (s.reg y))
  | .subReg x y => (s.setReg x (s.reg x - s.reg y)).setVF (notBorrow (s.reg x) (s.reg y))
  | .shr x y => (s.setReg x (s.reg y >>> 1)).setVF (shiftedOutRight (s.reg y))
  | .subn x y => (s.setReg x (s.reg y - s.reg x)).setVF (notBorrow (s.reg y) (s.reg x))
  | .shl x y => (s.setReg x (s.reg y <<< 1)).setVF (shiftedOutLeft (s.reg y))
  | .sneReg x y => s.skipIf (s.reg x != s.reg y)
  | .ldI nnn => s.setI (target nnn)
  | .jpV0 nnn => s.setPc (indexedTarget s nnn)
  | .rnd x kk => (s.setReg x (s.randomByte &&& kk)).countDraw
  | .drw x y n => (s.setScreen (drawingOf x y n s).fb).setVF (drawingOf x y n s).hit
  | .skp x => s.skipIf (s.keyDown (s.reg x))
  | .sknp x => s.skipIf (!s.keyDown (s.reg x))
  | .ldVxDT x => s.setReg x s.dt
  | .ldVxK x => s.setMode (.waitingForKey x)
  | .ldDTVx x => s.setDT (s.reg x)
  | .ldSTVx x => s.setST (s.reg x)
  | .addI x => s.setI (sumIndex s x)
  | .ldF x => s.setI (glyphAddress (s.reg x))
  | .ldB x => s.setMem (s.mem.writeBytes s.base (decimalDigits (s.reg x)))
  | .storeRegs x => s.setMem (s.mem.writeBytes s.base (s.regsUpTo x))
  | .loadRegs x => s.loadRegs x

/-! The rows of the fault table of R230, one per instruction that has one. -/

variable {s : State}

theorem handlerFault_ret_eq_none : handlerFault .ret s = none ↔ s.sp.val ≠ 0 := by
  simp [handlerFault]

theorem handlerFault_call_eq_none {nnn : Addr} : handlerFault (.call nnn) s = none ↔ s.sp.val < 16 := by
  have hsp := s.sp.isLt
  simp only [handlerFault, ite_eq_right_iff, reduceCtorEq, imp_false]
  omega

theorem handlerFault_drw_eq_none {x y : Reg} {n : Fin 16} :
    handlerFault (.drw x y n) s = none ↔ n.val = 0 ∨ s.i.toNat + n.val ≤ 4096 := by
  simp only [handlerFault, ite_eq_right_iff, reduceCtorEq, imp_false]
  omega

theorem handlerFault_ldB_eq_none {x : Reg} : handlerFault (.ldB x) s = none ↔ s.i.toNat + 3 ≤ 4096 := by
  simp only [handlerFault, ite_eq_right_iff, reduceCtorEq, imp_false]
  omega

theorem handlerFault_storeRegs_eq_none {x : Reg} :
    handlerFault (.storeRegs x) s = none ↔ s.i.toNat + (x.val + 1) ≤ 4096 := by
  simp only [handlerFault, ite_eq_right_iff, reduceCtorEq, imp_false]
  omega

theorem handlerFault_loadRegs_eq_none {x : Reg} :
    handlerFault (.loadRegs x) s = none ↔ s.i.toNat + (x.val + 1) ≤ 4096 := by
  simp only [handlerFault, ite_eq_right_iff, reduceCtorEq, imp_false]
  omega

/-- Where the table names no fault, the instruction completes. -/
theorem exec_of_handlerFault_eq_none {i : Instr} (h : handlerFault i s = none) : exec i s = .next (effect i s) := by
  cases i with
  | ret =>
    have hsp : 0 < s.sp.val := Nat.pos_of_ne_zero (handlerFault_ret_eq_none.mp h)
    simp only [exec, execRet, State.pop_of_pos s hsp]
    rfl
  | call nnn =>
    have hsp : s.sp.val < 16 := handlerFault_call_eq_none.mp h
    have hsucc : (⟨s.sp.val + 1, by omega⟩ : Fin 17) = Fin.ofNat 17 (s.sp.val + 1) := Fin.ext (Nat.mod_eq_of_lt (by omega)).symm
    have hset : s.stack.set s.sp.val s.pc hsp = s.stack.setIfInBounds s.sp.val s.pc := by
      ext k hk
      rw [Vector.getElem_set, Vector.getElem_setIfInBounds]
    simp only [exec, execCall, State.push_of_lt s s.pc hsp, hset, hsucc]
    rfl
  | drw x y n => exact withinMemory_of_le _ _ _ (handlerFault_drw_eq_none.mp h)
  | ldB x => exact withinMemory_of_le _ _ _ (.inr (handlerFault_ldB_eq_none.mp h))
  | storeRegs x => exact withinMemory_of_le _ _ _ (.inr (handlerFault_storeRegs_eq_none.mp h))
  | loadRegs x => exact withinMemory_of_le _ _ _ (.inr (handlerFault_loadRegs_eq_none.mp h))
  | _ => rfl

/-- Where the table names a fault, the instruction takes it (R236, R237). -/
theorem exec_of_handlerFault_eq_some {i : Instr} {kind : FaultKind} {addr : Option Nat} (h : handlerFault i s = some (kind, addr)) :
    exec i s = raiseInHandler kind (encode i) addr s := by
  cases i with
  | ret =>
    obtain ⟨hsp, h⟩ := Option.ite_none_right_eq_some.mp h
    cases h
    simp only [exec, execRet, State.pop_eq_none.mpr hsp]
  | call nnn =>
    obtain ⟨hsp, h⟩ := Option.ite_none_right_eq_some.mp h
    cases h
    simp only [exec, execCall, State.push_eq_none.mpr hsp]
  | drw x y n =>
    obtain ⟨hout, h⟩ := Option.ite_none_right_eq_some.mp h
    cases h
    exact withinMemory_of_lt (base := s.base) _ _ _ (by unfold State.base; omega)
  | ldB x | storeRegs x | loadRegs x =>
    obtain ⟨hout, h⟩ := Option.ite_none_right_eq_some.mp h
    cases h
    exact withinMemory_of_lt (base := s.base) _ _ _ (by unfold State.base; omega)
  | _ => cases h

/-- Everything an instruction can do: complete, or take the fault of the table. -/
theorem exec_eq_next {i : Instr} {t : State} (h : exec i s = .next t) :
    (handlerFault i s = none ∧ t = effect i s) ∨
    (∃ kind addr, handlerFault i s = some (kind, addr) ∧ TakesFault kind (s.pc - 2) (some (encode i)) addr s t) := by
  cases hf : handlerFault i s with
  | none =>
    rw [exec_of_handlerFault_eq_none hf] at h
    exact .inl ⟨rfl, (Host.Outcome.next.inj h).symm⟩
  | some f =>
    rw [exec_of_handlerFault_eq_some hf] at h
    exact .inr ⟨f.1, f.2, rfl, raiseInHandler_eq_next.mp h⟩

/-- No instruction stops the machine: a fault is a next state, too (R236). -/
theorem exists_exec_eq_next (i : Instr) (s : State) : ∃ t, exec i s = .next t := by
  cases hf : handlerFault i s with
  | none => exact ⟨_, exec_of_handlerFault_eq_none hf⟩
  | some f => exact ⟨_, exec_of_handlerFault_eq_some hf⟩

end Sys2Proof.Machine
end

section
/-!
PROOFS. The cycle of the instruction agent (spec/30_encoding.md R90 to R93): the fetch fault, the decode fault, and the decoded instruction.
-/

namespace Sys2Proof.Machine

/-- Two bytes decode, with nothing left, as the word they join decodes (R64, R101). -/
theorem decodeWord_of_decode_pair {hi lo : Byte} {i : Instr} (h : decode [hi, lo] = .ok (i, [])) : decodeWord (joinBytes hi lo) = .ok i := by
  cases hd : decodeWord (joinBytes hi lo) with
  | ok j => rw [decode, hd] at h; cases h; rfl
  | error e => rw [decode, hd] at h; cases h

/-- A cycle that fetches and decodes runs the instruction with `PC` advanced (R91, R104). -/
theorem cycle_of_decode {s : State} {i : Instr} (hm : s.mode = .running) (hpc : s.pc.toNat < 4095)
    (hd : decodeWord (joinBytes (s.mem.read s.pc.toNat) (s.mem.read (s.pc.toNat + 1))) = .ok i) : cycle s = exec i s.advance := by
  rw [cycle_running hm, runInstruction, fetch_of_lt hpc]
  simp only [hd]

/-- Settles O7: the turn is the same whether it is due or no input is. -/
theorem stepRunsDecodedInstruction : Obligations.StepRunsDecodedInstruction := by
  intro s i hm hpc hdecode
  have hd := decodeWord_of_decode_pair hdecode
  refine ⟨fun hi => ?_, fun rest hi => ?_⟩
  · rw [step_of_no_input hi]
    exact cycle_of_decode hm (by omega) hd
  · rw [step_of_input hi]
    exact cycle_of_decode (s := { s with inputs := rest }) hm (Nat.lt_of_succ_le hpc) hd

/-- Settles O8: the lowest address outside memory that the fetch touches is `PC` or, from 4095, the one after it. -/
theorem fetchBeyondMemoryFaults : Obligations.FetchBeyondMemoryFaults := by
  intro s hi hm hpc
  have haddr : max s.pc.toNat 4096 = if s.pc.toNat > 4095 then s.pc.toNat else s.pc.toNat + 1 := by split_ifs <;> omega
  refine ⟨_, ?_, rfl⟩
  rw [step_of_no_input hi, cycle_running hm, runInstruction, fetch_of_le hpc, ← haddr]
  rfl

/-- Settles O9: the decoder rejects what the opcode map leaves out, after the advance of `PC`. -/
theorem unknownOpcodeIsReported : Obligations.UnknownOpcodeIsReported := by
  rintro s w hi hm hpc rfl hillegal
  have hreject := (decoderAcceptsExactlyTheOpcodeMap _).2 hillegal
  refine ⟨_, ?_, rfl⟩
  rw [step_of_no_input hi, cycle_running hm, runInstruction, fetch_of_lt (Nat.lt_of_succ_le hpc)]
  simp only [hreject]
  rfl

end Sys2Proof.Machine
end

section
/-!
PROOFS. Calls, returns and skips on two registers (spec/40_flow.md).
-/

namespace Sys2Proof.Machine

theorem exec_ret_of_pos {s : State} (h : s.sp.val ≠ 0) : exec .ret s = .next (effect .ret s) :=
  exec_of_handlerFault_eq_none (handlerFault_ret_eq_none.mpr h)

theorem exec_call_of_lt {s : State} (h : s.sp.val < 16) (nnn : Addr) : exec (.call nnn) s = .next (effect (.call nnn) s) :=
  exec_of_handlerFault_eq_none (handlerFault_call_eq_none.mpr h)

theorem effect_ret_pc {s : State} {top : Fin 16} (h : s.sp.val = top.val + 1) : (effect .ret s).pc = s.stack[top] := by
  simp only [effect, h, Nat.add_sub_cancel, Fin.getElem_fin]

/-- Settles O11: the pop leaves its slot, and a target past 4094 is seen at the next fetch only. -/
theorem retReturnsToThePoppedAddress : Obligations.RetReturnsToThePoppedAddress := by
  refine ⟨decodeWord_encode .ret, fun s => ⟨fun top hsp => ?_, fun hsp => ?_⟩⟩
  · refine ⟨_, exec_ret_of_pos (by omega), ?_, effect_ret_pc hsp, fun _ => rfl, fun _ => rfl, rfl, nextFetchFails_of_le⟩
    simp only [effect, hsp, Nat.add_sub_cancel]
  · exact ⟨_, exec_of_handlerFault_eq_some (i := .ret) (if_pos hsp), rfl⟩

/-- Settles O13: with a slot free the new stack pointer does not wrap, and the slot written is the one it named before. -/
theorem callPushesTheReturnAddress : Obligations.CallPushesTheReturnAddress := by
  intro nnn s
  refine ⟨decodeWord_encode (.call nnn), fun hsp => ?_, fun hsp => ⟨_, exec_of_handlerFault_eq_some (i := .call nnn) (if_pos hsp), rfl⟩⟩
  refine ⟨_, exec_call_of_lt hsp nnn, toNat_target nnn, Nat.mod_eq_of_lt (by omega), fun k => ?_, fun _ => rfl, fun _ => rfl, rfl⟩
  simp only [effect, Fin.getElem_fin, Vector.getElem_setIfInBounds, eq_comm]

/-- Settles O17: the slot that the return reads is the one that the call wrote. -/
theorem returnUndoesCall : Obligations.ReturnUndoesCall := by
  intro nnn s t u hsp hcall husp hustack
  rw [exec_call_of_lt hsp nnn] at hcall
  obtain rfl := Host.Outcome.next.inj hcall
  have hsp' : u.sp.val = s.sp.val + 1 := husp ▸ Nat.mod_eq_of_lt (by omega)
  refine ⟨_, exec_ret_of_pos (by omega), ?_, Fin.ext ?_⟩
  · rw [effect_ret_pc (top := ⟨s.sp.val, hsp⟩) hsp', hustack]
    simp [effect]
  · simp only [effect, hsp', Nat.add_sub_cancel]

/-- In families 5 and 9 the low nibble 0 is the only legal one (R98, R99). -/
theorem legalWord_encodeXYN_of_ne_zero {t : BitVec 4} (ht : t = 0x5 ∨ t = 0x9) (x y : Reg) {n : BitVec 4} (hn : n ≠ 0) :
    legalWord (encodeXYN t x y n) = false := by
  have hn' : n.toFin ≠ 0 := fun h => hn (BitVec.eq_of_toFin_eq h)
  rw [← Bool.not_eq_true, legalWord_iff]
  rcases ht with rfl | rfl <;> simp [LegalFields, hn']

/-- Settles O15: both skips are `skipIf`, with opposite conditions. -/
theorem skipsOnRegisters : Obligations.SkipsOnRegisters := by
  intro x y s
  refine ⟨decodeWord_encode (.seReg x y), decodeWord_encode (.sneReg x y), fun n hn => ?_,
    ⟨_, exec_of_handlerFault_eq_none rfl, ?_, onlyPc_skipIf s _⟩, ⟨_, exec_of_handlerFault_eq_none rfl, ?_, onlyPc_skipIf s _⟩⟩
  · exact ⟨legalWord_encodeXYN_of_ne_zero (.inl rfl) x y hn, legalWord_encodeXYN_of_ne_zero (.inr rfl) x y hn⟩
  · rw [effect, State.skipIf_pc]; simp only [beq_iff_eq]
  · rw [effect, State.skipIf_pc]; simp only [bne_iff_ne, ite_not]

end Sys2Proof.Machine
end

section
/-!
PROOFS. Copies, logic, arithmetic, shifts and random (spec/41_alu.md): one register alone, or a result and its flag.
-/

namespace Sys2Proof.Machine

/-! A result in `V[x]` and then a flag in VF (R23, R154). -/

theorem reg_writeFlag_of_ne {x : Reg} (h : x ≠ 15) (s : State) (b : Byte) (f : Bool) : ((s.setReg x b).setVF f).reg x = b := by
  rw [State.reg_setVF, if_neg h, reg_setReg_self]

theorem toNat_reg_writeFlag_15 (s : State) (x : Reg) (b : Byte) (f : Bool) :
    (((s.setReg x b).setVF f).reg 15).toNat = if f then 1 else 0 := by
  rw [State.reg_setVF, if_pos rfl, toNat_flagByte]

theorem onlyRegs_writeFlag (s : State) (x : Reg) (b : Byte) (f : Bool) : OnlyRegs [x, 15] s ((s.setReg x b).setVF f) where
  regs z hz := by
    obtain ⟨hx, h15⟩ : z ≠ x ∧ z ≠ 15 := by simpa using hz
    rw [State.reg_setVF, if_neg h15, State.reg_setReg, if_neg hx]
  bytes _ := rfl
  rest := rfl

/-- Settles O19: one register alone is written. -/
theorem copiesRegister : Obligations.CopiesRegister := fun x y s =>
  ⟨decodeWord_encode (.ldReg x y), _, exec_of_handlerFault_eq_none rfl, reg_setReg_self s x _, onlyRegs_setReg s x _⟩

/-- Settles O20: each of the three writes `V[x]` alone, and its bits are those of the operation on words. -/
theorem logicIsBitwise : Obligations.LogicIsBitwise := by
  intro x y s
  refine ⟨decodeWord_encode (.orReg x y), decodeWord_encode (.andReg x y), decodeWord_encode (.xorReg x y),
    ⟨_, exec_of_handlerFault_eq_none rfl, onlyRegs_setReg s x _, fun k => ?_⟩,
    ⟨_, exec_of_handlerFault_eq_none rfl, onlyRegs_setReg s x _, fun k => ?_⟩,
    ⟨_, exec_of_handlerFault_eq_none rfl, onlyRegs_setReg s x _, fun k => ?_⟩⟩
  · rw [effect, reg_setReg_self, BitVec.getLsbD_or]
  · rw [effect, reg_setReg_self, BitVec.getLsbD_and]
  · rw [effect, reg_setReg_self, BitVec.getLsbD_xor]

/-- Settles O21: the sum of two bytes is taken modulo 256, and the carry is read off the operands as numbers. -/
theorem addWritesSumAndCarry : Obligations.AddWritesSumAndCarry := by
  intro x y s
  refine ⟨decodeWord_encode (.addReg x y), _, exec_of_handlerFault_eq_none rfl, onlyRegs_writeFlag s x _ _, fun hx => ?_, ?_⟩
  · rw [effect, reg_writeFlag_of_ne hx, BitVec.toNat_add]
  · rw [effect, toNat_reg_writeFlag_15]
    simp only [carryOut, decide_eq_true_eq]

/-- The difference of two bytes modulo 256 (R147, R149). -/
theorem toNat_byte_sub (a b : Byte) : (a - b).toNat = if a.toNat ≥ b.toNat then a.toNat - b.toNat else a.toNat + 256 - b.toNat := by
  rw [BitVec.toNat_sub]
  split_ifs <;> omega

theorem notBorrow_eq_true {a b : Byte} : notBorrow a b = true ↔ a.toNat ≥ b.toNat := decide_eq_true_iff

/-- Settles O22: with `x` and `y` exchanged the second difference is the first, so that one fact on bytes serves both. -/
theorem subtractWritesDifferenceAndNotBorrow : Obligations.SubtractWritesDifferenceAndNotBorrow := by
  rintro x y s a b rfl rfl
  refine ⟨decodeWord_encode (.subReg x y), decodeWord_encode (.subn x y),
    ⟨_, exec_of_handlerFault_eq_none rfl, onlyRegs_writeFlag s x _ _, fun hx => ?_, ?_⟩,
    ⟨_, exec_of_handlerFault_eq_none rfl, onlyRegs_writeFlag s x _ _, fun hx => ?_, ?_⟩⟩
  · rw [effect, reg_writeFlag_of_ne hx, toNat_byte_sub]
  · rw [effect, toNat_reg_writeFlag_15]
    simp only [notBorrow_eq_true]
  · rw [effect, reg_writeFlag_of_ne hx, toNat_byte_sub]
  · rw [effect, toNat_reg_writeFlag_15]
    simp only [notBorrow_eq_true]

/-- The lowest bit of a byte as a number (R148). -/
theorem shiftedOutRight_toNat (b : Byte) : (if shiftedOutRight b then 1 else 0) = b.toNat % 2 := by
  rw [shiftedOutRight, ← BitVec.testBit_toNat, Nat.testBit_eq_decide_div_mod_eq]
  split_ifs with h <;> rw [decide_eq_true_iff] at h <;> omega

/-- The highest bit of a byte as a number (R150). -/
theorem shiftedOutLeft_toNat (b : Byte) : (if shiftedOutLeft b then 1 else 0) = b.toNat / 128 := by
  rw [shiftedOutLeft, ← BitVec.testBit_toNat, Nat.testBit_eq_decide_div_mod_eq]
  split_ifs with h <;> rw [decide_eq_true_iff] at h <;> omega

/-- Settles O23: the bit that leaves the byte is its remainder by 2, or its quotient by 128. -/
theorem shiftsMoveOneBitOut : Obligations.ShiftsMoveOneBitOut := by
  rintro x y s b rfl
  refine ⟨decodeWord_encode (.shr x y), decodeWord_encode (.shl x y),
    ⟨_, exec_of_handlerFault_eq_none rfl, onlyRegs_writeFlag s x _ _, fun hx => ?_, ?_⟩,
    ⟨_, exec_of_handlerFault_eq_none rfl, onlyRegs_writeFlag s x _ _, fun hx => ?_, ?_⟩⟩
  · rw [effect, reg_writeFlag_of_ne hx, BitVec.toNat_ushiftRight, Nat.shiftRight_one]
  · rw [effect, toNat_reg_writeFlag_15, shiftedOutRight_toNat]
  · rw [effect, reg_writeFlag_of_ne hx, BitVec.toNat_shiftLeft, Nat.shiftLeft_eq, Nat.pow_one, Nat.mul_comm]
  · rw [effect, toNat_reg_writeFlag_15, shiftedOutLeft_toNat]

/-- Settles O24: a bit outside the mask is cleared by the and. -/
theorem randomIsMasked : Obligations.RandomIsMasked := by
  intro x kk s
  have hreg : (effect (.rnd x kk) s).reg x = Config.randomByte s.draws &&& kk := reg_setReg_self s x _
  refine ⟨decodeWord_encode (.rnd x kk), _, exec_of_handlerFault_eq_none rfl, hreg, fun k hk => ?_, fun z hz => ?_, fun _ => rfl, rfl, rfl⟩
  · rw [hreg, BitVec.getLsbD_and, hk, Bool.and_false]
  · rw [effect, State.reg_countDraw, State.reg_setReg, if_neg hz]

end Sys2Proof.Machine
end

section
/-!
PROOFS. The address register and memory (spec/42_index_memory.md, spec/20_memory.md): a run of bytes stored, and a run of registers loaded.
-/

namespace Sys2Proof.Machine

/-! A run of bytes alone. -/

/-- Storing a run of bytes changes no byte outside it and nothing but memory. -/
theorem onlyBytes_writeBytes (s : State) (base : Nat) (bs : List Byte) :
    OnlyBytes base bs.length s (s.setMem (s.mem.writeBytes base bs)) where
  regs _ := rfl
  bytes _ h := Memory.read_writeBytes_of_outside _ _ _ h
  rest := rfl

/-- After a store of a run of bytes, the next fetch reads, at each of its two addresses, the byte stored there or the old one. -/
theorem fetch_after_writeBytes {s : State} (hm : s.mem.wf) (hpc : s.pc.toNat < 4095) (base : Nat) (bs : List Byte)
    (hbs : base + bs.length ≤ 4096) {f : Nat → Byte} (hf : ∀ k (hk : k < bs.length), bs[k] = f k) :
    ∃ hi lo, fetch (s.setMem (s.mem.writeBytes base bs)) = .ok (joinBytes hi lo) ∧
      ByteAfterStore s base bs.length f s.pc.toNat hi ∧ ByteAfterStore s base bs.length f (s.pc.toNat + 1) lo :=
  ⟨_, _, fetch_of_lt hpc, byteAfterStore_writeBytes hm base bs hbs hf _, byteAfterStore_writeBytes hm base bs hbs hf _⟩

/-! The instructions within memory. -/

theorem exec_ldB_of_le {s : State} (x : Reg) (h : s.i.toNat + 2 ≤ 4095) : exec (.ldB x) s = .next (effect (.ldB x) s) :=
  exec_of_handlerFault_eq_none (handlerFault_ldB_eq_none.mpr (by omega))

theorem exec_storeRegs_of_le {s : State} {x : Reg} (h : s.i.toNat + x.val ≤ 4095) :
    exec (.storeRegs x) s = .next (effect (.storeRegs x) s) :=
  exec_of_handlerFault_eq_none (handlerFault_storeRegs_eq_none.mpr (by omega))

theorem exec_loadRegs_of_le {s : State} {x : Reg} (h : s.i.toNat + x.val ≤ 4095) :
    exec (.loadRegs x) s = .next (effect (.loadRegs x) s) :=
  exec_of_handlerFault_eq_none (handlerFault_loadRegs_eq_none.mpr (by omega))

/-- After a block store the byte at `I + z` is the register `V[z]` (R174). -/
theorem read_effect_storeRegs {s : State} (hm : s.mem.wf) {x : Reg} (h : s.i.toNat + x.val ≤ 4095) {z : Reg} (hz : z ≤ x) :
    (effect (.storeRegs x) s).mem.read (s.i.toNat + z.val) = s.reg z := by
  have hlen := s.length_regsUpTo x
  have hlt : z.val < (s.regsUpTo x).length := by rw [hlen]; exact Nat.lt_succ_of_le hz
  exact (Memory.read_writeBytes hm s.i.toNat _ (by omega) hlt).trans (s.getElem_regsUpTo x z.val hlt)

/-- Settles O26: the width of `I` reduces the sum, and a byte is widened unchanged. -/
theorem addToIndexKeepsSixteenBits : Obligations.AddToIndexKeepsSixteenBits := by
  intro x s
  refine ⟨decodeWord_encode (.addI x), _, exec_of_handlerFault_eq_none rfl, ?_, setI_frame s _⟩
  rw [effect, State.setI_i, sumIndex, BitVec.toNat_add, BitVec.toNat_setWidth_of_le (by decide)]

/-- Settles O27: the three digits are a run of bytes, stored at `I` upward. -/
theorem storesDecimalDigits : Obligations.StoresDecimalDigits := by
  refine ⟨fun x => decodeWord_encode (.ldB x), ?_⟩
  rintro x s d hi rfl
  refine ⟨_, exec_ldB_of_le x hi, onlyBytes_writeBytes s _ (decimalDigits (s.reg x)), fun hm => ?_⟩
  have hread (k : Nat) (hk : k < (decimalDigits (s.reg x)).length) :
      (effect (.ldB x) s).mem.read (s.i.toNat + k) = (decimalDigits (s.reg x))[k] :=
    Memory.read_writeBytes hm s.i.toNat _ (by rw [length_decimalDigits]; omega) hk
  refine ⟨?_, ?_, ?_⟩
  · exact congrArg BitVec.toNat (hread 0 (by simp))
  · exact congrArg BitVec.toNat (hread 1 (by simp))
  · exact congrArg BitVec.toNat (hread 2 (by simp))

/-- Settles O28: the registers are a run of `x + 1` bytes, stored at `I` upward. -/
theorem storesRegisterBlock : Obligations.StoresRegisterBlock := by
  refine ⟨fun x => decodeWord_encode (.storeRegs x), fun x s hi => ⟨_, exec_storeRegs_of_le hi, ?_, fun hm z => read_effect_storeRegs hm hi⟩⟩
  exact s.length_regsUpTo x ▸ onlyBytes_writeBytes s _ (s.regsUpTo x)

/-- What a block load leaves unchanged beside registers, in the form the obligation states it. -/
theorem loadRegs_frame (s : State) (x : Reg) : SameBytes s (s.loadRegs x) ∧ s.loadRegs x = { s with v := (s.loadRegs x).v } :=
  ⟨fun _ => by rw [State.loadRegs_mem], rfl⟩

/-- Settles O29: the load replaces the registers up to `x`, and those alone. -/
theorem loadsRegisterBlock : Obligations.LoadsRegisterBlock := by
  refine ⟨fun x => decodeWord_encode (.loadRegs x), fun x s hi => ?_⟩
  refine ⟨_, exec_loadRegs_of_le hi, fun z hz => ?_, fun z hz => ?_, loadRegs_frame s x⟩
  · exact (s.reg_loadRegs x z).trans (if_pos hz)
  · exact (s.reg_loadRegs x z).trans (if_neg (not_le.mpr hz))

/-- Settles O30: the load reads the addresses that the store wrote, since neither moves `I`. -/
theorem blockLoadRestoresBlockStore : Obligations.BlockLoadRestoresBlockStore := by
  intro x s t u hm hi hstore hmem hui
  obtain rfl := Host.Outcome.next.inj ((exec_storeRegs_of_le hi).symm.trans hstore)
  have hbase : u.i = s.i := hui
  refine ⟨_, exec_loadRegs_of_le (by rwa [hbase]), fun z hz => ?_⟩
  rw [effect, State.reg_loadRegs, if_pos hz, hmem, State.base, hbase]
  exact read_effect_storeRegs hm hi hz

/-- The digits of a byte by their place value (R173). -/
theorem getElem_decimalDigits (b : Byte) (k : Nat) (hk : k < (decimalDigits b).length) :
    (decimalDigits b)[k] = BitVec.ofNat 8 (b.toNat / 10 ^ (2 - k) % 10) := by
  have hb := b.isLt
  apply BitVec.eq_of_toNat_eq
  rw [BitVec.toNat_ofNat]
  match k with
  | 0 => show b.toNat / 100 = b.toNat / 100 % 10 % 256; omega
  | 1 => show b.toNat / 10 % 10 = b.toNat / 10 % 10 % 256; omega
  | 2 => show b.toNat % 10 = b.toNat / 1 % 10 % 256; omega

/-- Settles O31: either store is a run of bytes within memory, and a fetch reads memory as it is. -/
theorem storedCodeIsFetched : Obligations.StoredCodeIsFetched := by
  intro x s hm hpc
  refine ⟨fun hi => ?_, fun hi => ?_⟩
  · have hlen := s.length_regsUpTo x
    have hregs (k : Nat) (hk : k < (s.regsUpTo x).length) : (s.regsUpTo x)[k] = s.reg (Fin.ofNat 16 k) := by
      rw [s.getElem_regsUpTo x k hk]
      exact congrArg s.reg (Fin.ext (Nat.mod_eq_of_lt (by omega)).symm)
    obtain ⟨high, low, hfetch, hhigh, hlow⟩ := fetch_after_writeBytes hm (by omega) s.i.toNat (s.regsUpTo x) (by omega) hregs
    rw [hlen] at hhigh hlow
    exact ⟨_, high, low, exec_storeRegs_of_le hi, hfetch, by rintro _ rfl; exact ⟨hhigh, hlow⟩⟩
  · obtain ⟨high, low, hfetch, hhigh, hlow⟩ := fetch_after_writeBytes hm (by omega) s.i.toNat (decimalDigits (s.reg x))
      (by rw [length_decimalDigits]; omega) (getElem_decimalDigits (s.reg x))
    exact ⟨_, high, low, exec_ldB_of_le x hi, hfetch, by rintro _ rfl; exact ⟨hhigh, hlow⟩⟩

end Sys2Proof.Machine
end

section
/-!
PROOFS. Drawing (spec/43_display.md): the image that Dxyn inverts, and the second draw.
-/

namespace Sys2Proof.Machine

theorem exec_drw_of_le {s : State} {n : Fin 16} (x y : Reg) (h : n.val = 0 ∨ s.i.toNat + n.val - 1 ≤ 4095) :
    exec (.drw x y n) s = .next (effect (.drw x y n) s) :=
  exec_of_handlerFault_eq_none (handlerFault_drw_eq_none.mpr (by omega))

/-- The pixel `(u, v)` is in the image that Dxyn draws in this state (R191, R193). -/
def InImage (x y : Reg) (n : Fin 16) (s : State) : Fin 64 → Fin 32 → Prop :=
  SpriteSets s.mem s.base n.val (s.reg x).toNat (s.reg y).toNat

variable {x y : Reg} {n : Fin 16} {s : State}

theorem length_sprite_le (m : Memory) (base : Nat) (n : Fin 16) : (m.readBytes base n.val).length ≤ 32 := by
  rw [Memory.length_readBytes]; omega

theorem pixel_drawingOf_of_inImage {u : Fin 64} {v : Fin 32} (h : InImage x y n s u v) :
    (drawingOf x y n s).fb.pixel u v = !s.fb.pixel u v := by
  rw [drawingOf, Framebuffer.pixel_draw _ _ _ _ (length_sprite_le _ _ n), decide_eq_true (spriteSets_iff.mp h), Bool.xor_true]

theorem pixel_drawingOf_of_not_inImage {u : Fin 64} {v : Fin 32} (h : ¬ InImage x y n s u v) :
    (drawingOf x y n s).fb.pixel u v = s.fb.pixel u v := by
  rw [drawingOf, Framebuffer.pixel_draw _ _ _ _ (length_sprite_le _ _ n), decide_eq_false (mt spriteSets_iff.mpr h), Bool.xor_false]

theorem hit_drawingOf : (drawingOf x y n s).hit = true ↔ ∃ u v, InImage x y n s u v ∧ s.fb.pixel u v = true := by
  rw [drawingOf, Framebuffer.hit_draw _ _ _ _ (length_sprite_le _ _ n)]
  simp only [InImage, spriteSets_iff]

/-- VF after Dxyn is the collision flag (R192). -/
theorem reg_effect_drw_15 : (effect (.drw x y n) s).reg 15 = flagByte (drawingOf x y n s).hit := reg_setReg_self _ 15 _

theorem reg_effect_drw_of_ne {z : Reg} (h : z ≠ 15) : (effect (.drw x y n) s).reg z = s.reg z := by
  rw [effect, State.reg_setVF, if_neg h, State.reg_setScreen]

theorem reg_effect_drw_15_eq_one (h : ∃ u v, InImage x y n s u v ∧ s.fb.pixel u v = true) : (effect (.drw x y n) s).reg 15 = 1 := by
  rw [reg_effect_drw_15, hit_drawingOf.mpr h]
  rfl

theorem reg_effect_drw_15_eq_zero (h : ∀ u v, InImage x y n s u v → s.fb.pixel u v = false) : (effect (.drw x y n) s).reg 15 = 0 := by
  have hno : ¬ (drawingOf x y n s).hit = true := fun hhit => by
    obtain ⟨u, v, himage, hset⟩ := hit_drawingOf.mp hhit
    rw [h u v himage] at hset
    cases hset
  rw [reg_effect_drw_15, Bool.eq_false_of_not_eq_true hno]
  rfl

/-- Settles O33: the drawing takes both coordinates from the state before, and only then is VF written. -/
theorem drawInvertsTheSpriteImage : Obligations.DrawInvertsTheSpriteImage := by
  refine ⟨fun x y n => decodeWord_encode (.drw x y n), ?_⟩
  rintro x y n s img hi rfl
  exact ⟨_, exec_drw_of_le x y hi, fun u v => pixel_drawingOf_of_inImage, fun u v => pixel_drawingOf_of_not_inImage,
    reg_effect_drw_15_eq_one, reg_effect_drw_15_eq_zero, rfl, fun z => reg_effect_drw_of_ne, fun _ => rfl, rfl⟩

theorem effect_drw_i : (effect (.drw x y n) s).i = s.i := rfl

/-- A draw leaves the image of the same draw where it was, when neither coordinate is in VF. -/
theorem inImage_effect_drw (hx : x ≠ 15) (hy : y ≠ 15) : InImage x y n (effect (.drw x y n) s) = InImage x y n s := by
  rw [InImage, reg_effect_drw_of_ne hx, reg_effect_drw_of_ne hy]
  rfl

/-- A draw over a draw of the same image sees its pixels inverted (R194). -/
theorem pixel_effect_drw_of_inImage {u : Fin 64} {v : Fin 32} (h : InImage x y n s u v) :
    (effect (.drw x y n) s).fb.pixel u v = !s.fb.pixel u v := pixel_drawingOf_of_inImage h

theorem pixel_effect_drw_of_not_inImage {u : Fin 64} {v : Fin 32} (h : ¬ InImage x y n s u v) :
    (effect (.drw x y n) s).fb.pixel u v = s.fb.pixel u v := pixel_drawingOf_of_not_inImage h

/-- Two inversions of the same image cancel (R194). -/
theorem fb_effect_drw_twice (hx : x ≠ 15) (hy : y ≠ 15) : (effect (.drw x y n) (effect (.drw x y n) s)).fb = s.fb := by
  apply Framebuffer.ext
  intro u v
  by_cases h : InImage x y n s u v
  · rw [pixel_effect_drw_of_inImage (by rwa [inImage_effect_drw hx hy]), pixel_effect_drw_of_inImage h, Bool.not_not]
  · rw [pixel_effect_drw_of_not_inImage (by rwa [inImage_effect_drw hx hy]), pixel_effect_drw_of_not_inImage h]

/-- Settles O34: the second draw has the same image, over pixels that the first one inverted. -/
theorem drawingTwiceRestores : Obligations.DrawingTwiceRestores := by
  rintro x y n s t img hx hy hi rfl hdraw
  obtain rfl := Host.Outcome.next.inj ((exec_drw_of_le x y hi).symm.trans hdraw)
  have himage := inImage_effect_drw (n := n) (s := s) hx hy
  refine ⟨_, exec_drw_of_le x y (by rwa [effect_drw_i]), fb_effect_drw_twice hx hy, ?_, fun hset => reg_effect_drw_15_eq_zero fun u v h => ?_⟩
  · rintro ⟨u, v, h, hclear⟩
    refine reg_effect_drw_15_eq_one ⟨u, v, himage ▸ h, ?_⟩
    rw [pixel_effect_drw_of_inImage h, hclear, Bool.not_false]
  · rw [himage] at h
    rw [pixel_effect_drw_of_inImage h, hset u v h, Bool.not_true]

end Sys2Proof.Machine
end

section
/-!
PROOFS. The keypad and the timers (spec/44_keys_timers.md): skips on a key, the key wait, and the two counters.
-/

namespace Sys2Proof.Machine

/-! Keys (R210 to R213). -/

/-- A key is held when its value is below 16 and its line is up (R210). -/
theorem keyDown_eq_true {s : State} {b : Byte} : s.keyDown b = true ↔ b.toNat < 16 ∧ s.keysDown.getLsbD b.toNat = true := by
  unfold State.keyDown
  split_ifs with h <;> simp [h]

/-- Settles O36: both skips are `skipIf`, with opposite conditions. -/
theorem skipsOnKey : Obligations.SkipsOnKey := by
  refine ⟨fun x => ⟨decodeWord_encode (.skp x), decodeWord_encode (.sknp x)⟩, fun x s held hheld => ?_⟩
  have hkey : s.keyDown (s.reg x) = true ↔ held := keyDown_eq_true.trans hheld.symm
  refine ⟨⟨_, exec_of_handlerFault_eq_none rfl, fun h => ?_, fun h => ?_, onlyPc_skipIf s _⟩,
    ⟨_, exec_of_handlerFault_eq_none rfl, fun h => ?_, fun h => ?_, onlyPc_skipIf s _⟩⟩
  · rw [effect, State.skipIf_pc, if_pos (hkey.mpr h)]
  · rw [effect, State.skipIf_pc, if_neg (mt hkey.mp h)]
  · rw [effect, State.skipIf_pc, hkey.mpr h]
    rfl
  · rw [effect, State.skipIf_pc, Bool.eq_false_of_not_eq_true (mt hkey.mp h)]
    rfl

/-- Settles O37: the rest of the wait is the delivery of a key, which is no part of the cycle. -/
theorem keyWaitBlocks : Obligations.KeyWaitBlocks := fun x _ =>
  ⟨decodeWord_encode (.ldVxK x), _, exec_of_handlerFault_eq_none rfl, rfl, fun _ => rfl, fun _ => rfl, rfl⟩

/-! Timers (R214 to R216, R240, R243). -/

/-- Settles O39: the read writes one register alone, and the set the counter alone. -/
theorem delayTimerIsReadAndSet : Obligations.DelayTimerIsReadAndSet := fun x s =>
  ⟨decodeWord_encode (.ldVxDT x), decodeWord_encode (.ldDTVx x),
    ⟨_, exec_of_handlerFault_eq_none rfl, reg_setReg_self s x s.dt, onlyRegs_setReg s x s.dt⟩,
    ⟨_, exec_of_handlerFault_eq_none rfl, rfl, fun _ => rfl, fun _ => rfl, rfl⟩⟩

theorem toneActive_iff {s : State} : toneActive s = true ↔ s.st.toNat > 0 := decide_eq_true_iff

theorem tick_mode (s : State) : (tick s).mode = s.mode := by
  by_cases h : s.mode = .stopped
  · unfold tick; rw [h]; exact h
  · rw [tick_of_ne_stopped h]

/-- `k` ticks take the sound timer from `d` to `d - k` where ticks are enabled (R240). -/
theorem toNat_st_iterate_tick (k : Nat) {s : State} (h : s.mode ≠ .stopped) : (tick^[k] s).st.toNat = s.st.toNat - k := by
  induction k generalizing s with
  | zero => rfl
  | succ k ih =>
    rw [Function.iterate_succ_apply, ih (by rwa [tick_mode]), tick_of_ne_stopped h, toNat_countDown]
    omega

/-- Settles O40: the timer that `k` ticks leave is above 0 exactly while `k` is below what was set. -/
theorem soundTimerGatesTheTone : Obligations.SoundTimerGatesTheTone := by
  refine ⟨fun s => toneActive_iff, fun x s => ⟨decodeWord_encode (.ldSTVx x), _, exec_of_handlerFault_eq_none rfl, rfl, fun _ => rfl,
    fun _ => rfl, rfl, fun hm k => ?_⟩⟩
  have hm' : (effect (.ldSTVx x) s).mode ≠ .stopped := hm
  rw [toneActive_iff, toNat_st_iterate_tick k hm', effect, State.setST_st]
  omega

end Sys2Proof.Machine
end

section
/-!
PROOFS. The rules about every instruction: the faults are those of the table, and what each instruction may write and read.
-/

namespace Sys2Proof.Machine

/-- Settles O43: exec takes the fault of the table where there is one; where there is none it completes, and no effect but that of Fx0A writes
the mode. -/
theorem faultsAreExactlyTheTable : Obligations.FaultsAreExactlyTheTable := by
  intro i s
  refine ⟨fun kind addr hf => ⟨_, exec_of_handlerFault_eq_some hf, rfl⟩, fun hf => ⟨_, exec_of_handlerFault_eq_none hf, ?_⟩⟩
  cases i with
  | ldVxK x => exact ⟨rfl, .inr ⟨x, rfl⟩⟩
  | _ => simp [effect]

/-- Settles O35: the two display instructions set the mark, and no other effect, nor the taking of a fault, writes either field. -/
theorem onlyDisplayInstructionsTouchTheScreen : Obligations.OnlyDisplayInstructionsTouchTheScreen := by
  intro i s t h
  rcases exec_eq_next h with ⟨-, rfl⟩ | ⟨kind, addr, -, rfl⟩
  · cases i <;> simp [effect]
  · simp

/-- An effect writes no general register but those of R22. -/
theorem reg_effect_of_notMem {i : Instr} {z : Reg} (hz : z ∉ writtenRegs i) (s : State) : (effect i s).reg z = s.reg z := by
  cases i with
  | ldByte | addByte | ldReg | orReg | andReg | xorReg | rnd | ldVxDT => exact (onlyRegs_setReg s _ _).regs z hz
  | addReg | subReg | shr | subn | shl => exact (onlyRegs_writeFlag s _ _ _).regs z hz
  | drw => exact reg_effect_drw_of_ne (List.ne_of_not_mem_cons hz)
  | loadRegs x =>
    have hx : ¬ z ≤ x := by simpa [writtenRegs] using hz
    exact (s.reg_loadRegs x z).trans (if_neg hx)
  | seByte | sneByte | seReg | sneReg | skp | sknp => exact s.reg_skipIf _ z
  | cls | ret | jp | call | ldI | jpV0 | ldVxK | ldDTVx | ldSTVx | addI | ldF | ldB | storeRegs => rfl

/-- Settles O54: neither the effect nor the taking of a fault writes another register. -/
theorem registersWrittenAreTheTable : Obligations.RegistersWrittenAreTheTable := by
  intro i s t h z hz
  rcases exec_eq_next h with ⟨-, rfl⟩ | ⟨kind, addr, -, rfl⟩
  · exact reg_effect_of_notMem hz s
  · rfl

/-- Settles O55: no other effect, nor the taking of a fault, writes memory. -/
theorem onlyStoresWriteMemory : Obligations.OnlyStoresWriteMemory := by
  intro i s t h hmem
  rcases exec_eq_next h with ⟨-, rfl⟩ | ⟨kind, addr, -, rfl⟩
  · cases i with
    | ldB x => exact .inl ⟨x, rfl⟩
    | storeRegs x => exact .inr ⟨x, rfl⟩
    | _ => exact absurd (by simp [effect]) hmem
  · exact absurd rfl hmem

/-- Settles O56: each field is unchanged by every effect but those named, and by the taking of a fault. -/
theorem specialRegistersHaveTheirWriters : Obligations.SpecialRegistersHaveTheirWriters := by
  intro i s t h
  rcases exec_eq_next h with ⟨-, rfl⟩ | ⟨kind, addr, -, rfl⟩
  · cases i <;> simp [effect]
  · simp

/-- Settles O57: neither the fault table nor an effect reads the two fields; a skip decides on others and is a write of `PC`. -/
theorem outputsAreNeverObserved : Obligations.OutputsAreNeverObserved := by
  intro i s t b c h
  have hsame : handlerFault i { s with rp := b, st := c } = handlerFault i s := by cases i <;> rfl
  rcases exec_eq_next h with ⟨hf, rfl⟩ | ⟨kind, addr, hf, rfl⟩
  · refine ⟨_, exec_of_handlerFault_eq_none (hsame.trans hf), ?_⟩
    cases i with
    | seByte | sneByte | seReg | sneReg | skp | sknp => simp only [effect, State.skipIf_eq]; rfl
    | _ => rfl
  · exact ⟨_, exec_of_handlerFault_eq_some (hsame.trans hf), rfl⟩

/-- Settles O58: neither the fault table nor an effect but those of the two key skips reads the key lines. -/
theorem keysAreSeenOnlyByTheKeySkips : Obligations.KeysAreSeenOnlyByTheKeySkips := by
  intro i s t down hskp hsknp h
  have hsame : handlerFault i { s with keysDown := down } = handlerFault i s := by cases i <;> rfl
  rcases exec_eq_next h with ⟨hf, rfl⟩ | ⟨kind, addr, hf, rfl⟩
  · rw [exec_of_handlerFault_eq_none (hsame.trans hf)]
    cases i with
    | skp x => exact absurd rfl (hskp x)
    | sknp x => exact absurd rfl (hsknp x)
    | seByte | sneByte | seReg | sneReg => simp only [effect, State.skipIf_eq]; rfl
    | _ => rfl
  · exact exec_of_handlerFault_eq_some (hsame.trans hf)

end Sys2Proof.Machine
end

section
/-!
PROOFS. The modes and the host (spec/60_exceptions.md, spec/70_reset_and_hazards.md): what each input due does, mode by mode.
-/

namespace Sys2Proof.Machine

/-! The render step (R245, R246). -/

theorem render_of_pending {s : State} (h : s.rp = true) : render s = some (readOut s, { s with rp := false }) := if_pos h

theorem render_of_not_pending {s : State} (h : s.rp = false) : render s = none := if_neg (by rw [h]; decide)

/-- A redraw acknowledgement leaves the mark clear, as it may have been before. -/
theorem acknowledgeRedraw_eq (s : State) : acknowledgeRedraw s = { s with rp := false } := by
  cases hrp : s.rp with
  | true => rw [acknowledgeRedraw, render_of_pending hrp]
  | false => rw [acknowledgeRedraw, render_of_not_pending hrp, ← hrp]

/-- The read-out is in row-major order: the index of a pixel is below 2048 and determines its column and row. -/
theorem readOut_getElem? (s : State) (u : Fin 64) (v : Fin 32) : (readOut s)[v.val * 64 + u.val]? = some (s.fb.pixel u v) := by
  have hk : v.val * 64 + u.val < 2048 := by omega
  have hu : Fin.ofNat 64 ((v.val * 64 + u.val) % 64) = u := Fin.ext (by simp)
  have hv : Fin.ofNat 32 ((v.val * 64 + u.val) / 64) = v := Fin.ext (by simp; omega)
  rw [Vector.getElem?_eq_getElem hk, readOut, Vector.getElem_ofFn, hu, hv]

/-! The step of each input due (R244). -/

section
variable {s : State} {rest : List Input}

theorem step_cycle_of_ne_running (hi : s.inputs = .cycle :: rest) (hm : s.mode ≠ .running) : step s = .next { s with inputs := rest } :=
  (step_of_input hi).trans (cycle_of_ne_running hm)

theorem step_tick_of_stopped (hi : s.inputs = .tick :: rest) (hm : s.mode = .stopped) : step s = .next { s with inputs := rest } := by
  rw [step_of_input hi, handleInput, tick, hm]

theorem step_keys {down : BitVec 16} (hi : s.inputs = .keys down :: rest) :
    step s = .next { s with keysDown := down, inputs := rest } := step_of_input hi

theorem step_keyPress_of_waiting {k : Fin 16} {x : Reg} (hi : s.inputs = .keyPress k :: rest) (hm : s.mode = .waitingForKey x) :
    step s = .next ((State.setReg { s with inputs := rest } x (BitVec.ofNat 8 k.val)).setMode .running) := by
  rw [step_of_input hi, handleInput, pressKey, hm]

theorem step_keyPress_of_not_waiting {k : Fin 16} (hi : s.inputs = .keyPress k :: rest) (hm : ∀ x, s.mode ≠ .waitingForKey x) :
    step s = .next { s with inputs := rest } := by
  rw [step_of_input hi, handleInput, pressKey]
  split
  case h_1 x hx => exact absurd hx (hm x)
  case h_2 => rfl

theorem step_redrawAck (hi : s.inputs = .redrawAck :: rest) : step s = .next { s with rp := false, inputs := rest } := by
  rw [step_of_input hi, handleInput, acknowledgeRedraw_eq]

theorem step_stop (hi : s.inputs = .stop :: rest) : step s = .next { s with mode := .stopped, inputs := rest } := step_of_input hi

end

/-- Settles O10: the turn of the instruction agent is disabled, due or not. -/
theorem noCycleOutsideRunning : Obligations.NoCycleOutsideRunning := fun _ hm =>
  ⟨fun hi => (step_of_no_input hi).trans (cycle_of_ne_running hm), fun _ hi => step_cycle_of_ne_running hi hm⟩

/-- Settles O44: of the five inputs left, only a tick, a key pattern and a redraw acknowledgement change anything. -/
theorem faultedIsTerminal : Obligations.FaultedIsTerminal := by
  intro s e rest hm hi hstop hreset
  cases e with
  | cycle => exact ⟨_, step_cycle_of_ne_running hi (by simp [hm]), rfl, fun _ => rfl⟩
  | tick => exact ⟨_, step_tick hi (by simp [hm]), rfl, fun _ => rfl⟩
  | keys down => exact ⟨_, step_keys hi, rfl, fun _ => rfl⟩
  | keyPress k => exact ⟨_, step_keyPress_of_not_waiting hi (by simp [hm]), rfl, fun _ => rfl⟩
  | redrawAck => exact ⟨_, step_redrawAck hi, rfl, fun _ => rfl⟩
  | stop => exact absurd rfl hstop
  | reset p => exact absurd rfl (hreset p)

/-- Settles O45: a tick is disabled, and a second stop writes the mode that is there. -/
theorem stoppedIsTerminal : Obligations.StoppedIsTerminal := by
  intro s e rest hm hi hreset
  cases e with
  | cycle => exact ⟨_, step_cycle_of_ne_running hi (by simp [hm]), rfl, fun _ => rfl⟩
  | tick => exact ⟨_, step_tick_of_stopped hi hm, rfl, fun _ => rfl⟩
  | keys down => exact ⟨_, step_keys hi, rfl, fun _ => rfl⟩
  | keyPress k => exact ⟨_, step_keyPress_of_not_waiting hi (by simp [hm]), rfl, fun _ => rfl⟩
  | redrawAck => exact ⟨_, step_redrawAck hi, rfl, fun _ => rfl⟩
  | stop => exact ⟨_, step_stop hi, by simp only [hm], fun _ => rfl⟩
  | reset p => exact absurd rfl (hreset p)

/-- Settles O46: the stop writes the mode in every mode. -/
theorem stopEndsTheRun : Obligations.StopEndsTheRun := fun _ _ hi => step_stop hi

/-- Settles O47: with the mark clear, clearing it changes nothing. -/
theorem renderTakesSnapshotAndClears : Obligations.RenderTakesSnapshotAndClears := fun s _ hi =>
  ⟨step_redrawAck hi, fun hrp => ⟨_, render_of_pending hrp, readOut_getElem? s⟩, render_of_not_pending⟩

/-- The value of a key fits a register. -/
theorem toNat_keyValue (k : Fin 16) : (BitVec.ofNat 8 k.val).toNat = k.val := Nat.mod_eq_of_lt (by omega)

/-- A key value below 16 names the key line of that number (R210). -/
theorem keyDown_ofNat (s : State) (k : Fin 16) : s.keyDown (BitVec.ofNat 8 k.val) = s.keysDown.getLsbD k.val := by
  rw [State.keyDown, toNat_keyValue, if_pos k.isLt]

/-- Settles O59: the presented pattern is the field that `keyDown` reads. -/
theorem keysArePresented : Obligations.KeysArePresented := fun _ _ _ hi => ⟨_, step_keys hi, rfl, keyDown_ofNat _⟩

/-- Settles O38: the value of the key fits a register, and the wait holds the register that is written. -/
theorem keyPressEndsTheWait : Obligations.KeyPressEndsTheWait := by
  intro s k rest hi
  refine ⟨fun x hm => ⟨_, step_keyPress_of_waiting hi hm, ?_, rfl, fun z hz => ?_, fun _ => rfl, rfl⟩, step_keyPress_of_not_waiting hi⟩
  · rw [State.reg_setMode, reg_setReg_self, toNat_keyValue]
  · rw [State.reg_setMode, State.reg_setReg, if_neg hz]
    rfl

/-- Settles O41: the step of a tick takes both counters down, and is disabled in the mode Stopped. -/
theorem tickCountsBothTimersDown : Obligations.TickCountsBothTimersDown := fun _ _ hi =>
  ⟨fun hm => ⟨_, step_tick hi hm, toNat_countDown _, toNat_countDown _, rfl⟩, step_tick_of_stopped hi⟩

/-! Reset (R270 to R273). -/

theorem restart_of_fits {p : List Byte} (s : State) (h : p.length ≤ 3584) :
    restart p s =
      .next { State.reset with mem := State.reset.mem.writeBytes 512 p, keysDown := s.keysDown, draws := s.draws, inputs := s.inputs } := by
  have hload : State.reset.mem.loadBlock 512 p = .ok (State.reset.mem.writeBytes 512 p) :=
    Memory.loadBlock_eq_ok.mpr ⟨outOfRange_eq_none.mpr (.inr (by omega)), rfl⟩
  rw [restart, hload]

theorem restart_of_not_fits {p : List Byte} (s : State) (h : 3584 < p.length) : restart p s = .fault (.loadFailed 4096) := by
  have hload : State.reset.mem.loadBlock 512 p = .error 4096 :=
    Memory.loadBlock_eq_error.mpr (outOfRange_eq_some.mpr ⟨by omega, rfl⟩)
  rw [restart, hload]

/-- The reset memory holds the font below 80 (R40, R68). -/
theorem unlisted_font (k : Fin 80) : Memory.unlisted k.val = Config.font k := dif_pos k.isLt

/-- Settles O48: every field is written out in the reset state, and its memory lists nothing. -/
theorem resetState : Obligations.ResetState := by
  refine ⟨rfl, rfl, rfl, Framebuffer.pixel_clear, unlisted_font, fun a => Memory.unlisted_of_le, ?_, rfl, rfl, ?_, rfl, rfl, rfl⟩
  · intro z; simp [State.reg, State.reset]
  · intro z; simp [State.reset]

/-- Settles O50: the image is a run of bytes written over the reset memory, at addresses above the font. -/
theorem resetLoadsTheImage : Obligations.ResetLoadsTheImage := by
  intro s p rest hi
  rw [step_of_input hi]
  refine ⟨fun hfits => ⟨_, restart_of_fits _ hfits, fun k hk => ?_, fun k => ?_, fun a hfont hout => ?_, rfl⟩, restart_of_not_fits _⟩
  · exact Memory.read_writeBytes Memory.wf_nil 512 p (by omega) hk
  · exact (Memory.read_writeBytes_of_outside _ _ _ (.inl (by omega))).trans (unlisted_font k)
  · exact (Memory.read_writeBytes_of_outside _ _ _ hout).trans (Memory.unlisted_of_le hfont)

/-- Settles O60: a stop keeps the record and leaves the mode Faulted, and a reset takes both from the reset state. -/
theorem faultIsPresentedToTheHost : Obligations.FaultIsPresentedToTheHost := by
  rintro kind ia op addr s t rfl
  refine ⟨rfl, fun rest hi => ⟨_, step_of_input hi, rfl⟩, fun p rest hi hfits => ?_⟩
  rw [step_of_input hi]
  exact ⟨_, restart_of_fits _ hfits, rfl⟩

/-! Every turn answers, short of a reset that fails. -/

theorem exists_cycle_eq_next (s : State) : ∃ t, cycle s = .next t := by
  by_cases hm : s.mode = .running
  case neg => exact ⟨s, cycle_of_ne_running hm⟩
  rw [cycle_running hm]
  rcases runInstruction_cases s with ⟨-, hrun⟩ | ⟨w, e, -, -, -, hrun⟩ | ⟨w, i, -, -, -, hrun⟩
  · exact ⟨_, hrun⟩
  · exact ⟨_, hrun⟩
  · rw [hrun]; exact exists_exec_eq_next i s.advance

/-- Settles O51: a turn of the instruction agent answers, and of the inputs only a reset can fail. -/
theorem stepAlwaysAnswers : Obligations.StepAlwaysAnswers := by
  intro s
  cases hi : s.inputs with
  | nil => exact .inl (step_of_no_input hi ▸ exists_cycle_eq_next s)
  | cons e rest =>
    rw [step_of_input hi]
    cases e with
    | cycle => exact .inl (exists_cycle_eq_next _)
    | tick | keys | keyPress | redrawAck | stop => exact .inl ⟨_, rfl⟩
    | reset p =>
      rcases Nat.lt_or_ge 3584 p.length with hlong | hfits
      · exact .inr ⟨p, rest, rfl, decide_eq_false (show ¬ 512 + p.length ≤ 4096 by omega)⟩
      · exact .inl ⟨_, restart_of_fits _ hfits⟩

end Sys2Proof.Machine
end

section
/-!
PROOFS. The invariant of reachable states (spec/10_state.md R43): each kind of step keeps it.
-/

namespace Sys2Proof.Machine

/-! The fault records that are made (R37, R230). -/

theorem FaultRecord.ok_memoryFault (ia : Word) (op : Option Word) {a : Nat} (hlow : 4096 ≤ a) (hhigh : a ≤ 65535) :
    FaultRecord.Ok ⟨.memoryFault, ia, op, some a⟩ where
  addr_iff := by simp
  addr_out := by rintro _ ⟨⟩; exact ⟨hlow, hhigh⟩
  op_none _ := rfl

theorem FaultRecord.ok_of_ne_memoryFault {kind : FaultKind} (hk : kind ≠ .memoryFault) (ia w : Word) :
    FaultRecord.Ok ⟨kind, ia, some w, none⟩ where
  addr_iff := by simp [hk]
  addr_out := by rintro _ ⟨⟩
  op_none h := by cases h

theorem FaultRecord.ok_max_4096 (ia : Word) (op : Option Word) (a : Word) :
    FaultRecord.Ok ⟨.memoryFault, ia, op, some (max a.toNat 4096)⟩ :=
  FaultRecord.ok_memoryFault ia op (by omega) (by omega)

/-- The records of the handlers' faults are well formed. -/
theorem ok_of_handlerFault {i : Instr} {s : State} {kind : FaultKind} {addr : Option Nat} (h : handlerFault i s = some (kind, addr))
    (ia w : Word) : FaultRecord.Ok ⟨kind, ia, some w, addr⟩ := by
  cases i with
  | ret | call =>
    obtain ⟨-, h⟩ := Option.ite_none_right_eq_some.mp h
    cases h
    exact FaultRecord.ok_of_ne_memoryFault (by decide) ia w
  | drw | ldB | storeRegs | loadRegs =>
    obtain ⟨-, h⟩ := Option.ite_none_right_eq_some.mp h
    cases h
    exact FaultRecord.ok_max_4096 ia _ _
  | _ => cases h

/-! An instruction that completes. -/

/-- A write of `PC` alone keeps the invariant when the new value is in its range. -/
theorem Inv.setPc {s : State} (h : Inv s) {a : Word} (ha : a.toNat ≤ 4350) : Inv (s.setPc a) :=
  h.of_eq rfl ha rfl rfl rfl rfl

theorem Inv.skipIf {s : State} (h : Inv s) (hpc : s.pc.toNat ≤ 4096) (c : Bool) : Inv (s.skipIf c) := by
  rw [State.skipIf_eq]
  apply h.setPc
  split_ifs
  · rw [BitVec.toNat_add]; simp; omega
  · omega

/-- A write within memory keeps the invariant. -/
theorem Inv.setMem_writeBytes {s : State} (h : Inv s) {bs : List Byte} (hbs : s.i.toNat + bs.length ≤ 4096) :
    Inv (s.setMem (s.mem.writeBytes s.base bs)) :=
  { h with mem := Memory.wf_writeBytes h.mem _ _ hbs }

/-- The pop of 00EE takes a held address, which is in range, for the new `PC` (R120). -/
theorem Inv.effect_ret {s : State} (h : Inv s) (hsp : s.sp.val ≠ 0) : Inv (effect .ret s) where
  mem := h.mem
  pc := (h.stack ⟨s.sp.val - 1, by omega⟩ (by simp only; omega)).2.trans (by decide)
  stack k hk := h.stack k (by simp only [effect] at hk; omega)
  running := h.running
  waiting := h.waiting
  faulted := h.faulted
  record := h.record

/-- The push of 2nnn adds the address after the call to the held ones (R122). -/
theorem Inv.effect_call {s : State} (h : Inv s) (hsp : s.sp.val < 16) (hlow : 2 ≤ s.pc.toNat) (hhigh : s.pc.toNat ≤ 4096) (nnn : Addr) :
    Inv (effect (.call nnn) s) where
  mem := h.mem
  pc := by rw [effect, toNat_target]; omega
  stack k hk := by
    have hk' : k.val < s.sp.val + 1 := Nat.lt_of_lt_of_eq hk (Nat.mod_eq_of_lt (by omega))
    simp only [effect, Fin.getElem_fin, Vector.getElem_setIfInBounds]
    split_ifs with heq
    · exact ⟨hlow, hhigh⟩
    · exact h.stack k (by omega)
  running := h.running
  waiting := h.waiting
  faulted := h.faulted
  record := h.record

/-- An instruction that completes keeps the invariant: in the mode Running, with `PC` after an instruction that was fetched. -/
theorem Inv.effect {s : State} (h : Inv s) (hm : s.mode = .running) (hlow : 2 ≤ s.pc.toNat) (hhigh : s.pc.toNat ≤ 4096) {i : Instr}
    (hf : handlerFault i s = none) : Inv (effect i s) := by
  cases i with
  | ret => exact h.effect_ret (handlerFault_ret_eq_none.mp hf)
  | call nnn => exact h.effect_call (handlerFault_call_eq_none.mp hf) hlow hhigh nnn
  | jp nnn => exact h.setPc (by rw [toNat_target]; omega)
  | jpV0 nnn => exact h.setPc (by rw [toNat_indexedTarget]; omega)
  | seByte | sneByte | seReg | sneReg | skp | sknp => exact h.skipIf hhigh _
  | ldVxK x =>
    exact { h with
      running := fun _ => h.running hm
      waiting := fun _ _ => h.running hm
      faulted := by rintro ⟨⟩ }
  | ldB x => exact h.setMem_writeBytes (handlerFault_ldB_eq_none.mp hf)
  | storeRegs x => exact h.setMem_writeBytes (by rw [State.length_regsUpTo]; exact handlerFault_storeRegs_eq_none.mp hf)
  | _ => apply h.of_eq <;> simp [Machine.effect, h.pc]

/-! The agents' turns. -/

/-- A turn of the instruction agent keeps the invariant, whatever is fetched (R104). -/
theorem Inv.cycle {s t : State} (h : Inv s) (ht : cycle s = .next t) : Inv t := by
  by_cases hm : s.mode = .running
  case neg =>
    rw [cycle_of_ne_running hm] at ht
    exact Host.Outcome.next.inj ht ▸ h
  rw [cycle_running hm] at ht
  rcases runInstruction_cases s with ⟨-, hrun⟩ | ⟨w, e, hpc, -, -, hrun⟩ | ⟨w, i, hpc, -, -, hrun⟩
  · exact h.of_takesFault (raise_eq_next.mp (hrun ▸ ht)) (FaultRecord.ok_max_4096 _ _ _)
  all_goals
    have hpc' : s.advance.pc.toNat = s.pc.toNat + 2 := toNat_advance_pc hpc
    have hadvance : Inv s.advance := h.setPc (hpc' ▸ (by omega))
  · exact hadvance.of_takesFault (raise_eq_next.mp (hrun ▸ ht)) (FaultRecord.ok_of_ne_memoryFault (by decide) _ _)
  · rcases exec_eq_next (hrun ▸ ht) with ⟨hf, rfl⟩ | ⟨kind, addr, hf, hfault⟩
    · exact hadvance.effect hm (by omega) (by omega) hf
    · exact hadvance.of_takesFault hfault (ok_of_handlerFault hf _ _)

theorem Inv.tick {s : State} (h : Inv s) : Inv (tick s) := by
  by_cases hm : s.mode = .stopped
  · unfold Machine.tick; rw [hm]; exact h
  · rw [tick_of_ne_stopped hm]; exact h.of_eq rfl h.pc rfl rfl rfl rfl

/-- A key press ends a wait, in which no fault is recorded. -/
theorem Inv.pressKey {s : State} (h : Inv s) (k : Fin 16) : Inv (pressKey k s) := by
  unfold Machine.pressKey
  split
  case h_1 x hm =>
    exact { h with
      running := fun _ => h.waiting x hm
      waiting := by rintro _ ⟨⟩
      faulted := by rintro ⟨⟩ }
  case h_2 => exact h

theorem Inv.acknowledgeRedraw {s : State} (h : Inv s) : Inv (acknowledgeRedraw s) := by
  rw [acknowledgeRedraw_eq]
  exact h.of_eq rfl h.pc rfl rfl rfl rfl

theorem Inv.stop {s : State} (h : Inv s) : Inv (stop s) :=
  { h with
    running := by rintro ⟨⟩
    waiting := by rintro _ ⟨⟩
    faulted := by rintro ⟨⟩ }

/-- A reset that completes loads its image into the canonical reset memory. -/
theorem Inv.restart {s t : State} {p : List Byte} (ht : restart p s = .next t) : Inv t := by
  obtain ⟨hfits, rfl⟩ := restart_eq_next ht
  have himage : p.length = 0 ∨ 512 + p.length ≤ 4096 := outOfRange_eq_none.mp hfits
  exact { Tests.reset_meets_Inv with mem := Memory.wf_writeBytes Memory.wf_nil 512 p (by omega) }

/-- Settles O52: the witness of the model's tests says it. -/
theorem resetMeetsTheInvariant : Obligations.ResetMeetsTheInvariant := Tests.reset_meets_Inv

/-- Settles O53: the turn is a cycle, or one of the inputs, and each of them keeps the invariant. -/
theorem stepKeepsTheInvariant : Obligations.StepKeepsTheInvariant := by
  intro s t h ht
  cases hi : s.inputs with
  | nil => exact h.cycle (step_of_no_input hi ▸ ht)
  | cons e rest =>
    have hrest : Inv { s with inputs := rest } := h.of_eq rfl h.pc rfl rfl rfl rfl
    rw [step_of_input hi] at ht
    cases e with
    | cycle => exact hrest.cycle ht
    | tick => exact Host.Outcome.next.inj ht ▸ hrest.tick
    | keys down => exact Host.Outcome.next.inj ht ▸ hrest.of_eq rfl h.pc rfl rfl rfl rfl
    | keyPress k => exact Host.Outcome.next.inj ht ▸ hrest.pressKey k
    | redrawAck => exact Host.Outcome.next.inj ht ▸ Host.Outcome.next.inj ht ▸ hrest.acknowledgeRedraw
    | stop => exact Host.Outcome.next.inj ht ▸ hrest.stop
    | reset p => exact Inv.restart ht

end Sys2Proof.Machine
end
